-- ==== Sys2Proof/Word.lean ====
section
/-! DEFINITION. The Word of the block (00_scope.md R1): 32 bits of two's-complement binary. The Word functions
of 40_alu.md section 1 are in Machine/WordOps.lean. -/

namespace Sys2Proof

/-- A Word: every register, bus value and memory datum is exactly 32 bits (R1, R51). Two Words are equal
exactly when their bits are (R52). -/
abbrev Word := BitVec 32

/-- One byte of the external memory's address space (R28). -/
abbrev Byte := BitVec 8

end Sys2Proof
end

