-- ==== Sys2Proof/Syntax.lean ====
section
/-! DEFINITION. The micro-operations of 30_encoding.md R46, one constructor per row of spec/opcode_table.json, and
the pseudo-operations of R50, which are sequences of them. -/

namespace Sys2Proof

/-- A micro-operation. A register operand is the unsigned number of R44, an immediate the 16 bits of R45. -/
inductive Instr where
  | sendAlu                        -- SEND_ALU, R74
  | recvAlu                        -- RECV_ALU, R75
  | sendLsu                        -- SEND_LSU, R76
  | recvLsu                        -- RECV_LSU, R78
  | sendPc                         -- SEND_PC, R79
  | recvPc                         -- RECV_PC, R80
  | sendIr                         -- SEND_IR, R81
  | recvIr                         -- RECV_IR, R82
  | sendLsuAddr                    -- SEND_LSU_ADDR, R77
  | regRead (i : Nat)              -- REG_READ r<i>, R83
  | regWrite (i : Nat)             -- REG_WRITE r<i>, R84
  | seti (imm : BitVec 16)         -- SETI, R85
  | sethi (imm : BitVec 16)        -- SETHI, R86
  | aluXor                         -- ALU_XOR, R59
  | aluOr                          -- ALU_OR, R60
  | aluAnd                         -- ALU_AND, R61
  | aluNot                         -- ALU_NOT, R62
  | aluShift                       -- ALU_SHIFT, R63
  | aluAdd                         -- ALU_ADD, R64
  | pcInc                          -- PC_INC, R66
  | pcAddOffset                    -- PC_ADD_OFFSET, R67
  | pcToLsu                        -- PC_TO_LSU, R68
  | lsuToPc                        -- LSU_TO_PC, R69
  | pcToIr                         -- PC_TO_IR, R70
  | irToPc                         -- IR_TO_PC, R71
  | lsuLoad                        -- LSU_LOAD, R87
  | lsuStore                       -- LSU_STORE, R88
  | boundary                       -- BOUNDARY, R93
  | halt                           -- HALT, R94
deriving DecidableEq, Repr

/-- A pseudo-operation of R50. It has no encoding of its own; the sequencer issues its expansion. -/
inductive Pseudo where
  | li (c : Word)
  | li16 (c : BitVec 16)
  | move (d s : Nat)
  | fetch
  | next
deriving DecidableEq, Repr

/-- The expansions of R50, oldest micro-operation first. -/
def Pseudo.expand : Pseudo → List Instr
  | .li c     => [.seti (c.extractLsb' 0 16), .sethi (c.extractLsb' 16 16)]
  | .li16 c   => [.seti c]
  | .move d s => [.regRead s, .regWrite d]
  | .fetch    => [.pcToLsu, .lsuLoad, .recvLsu, .sendIr]
  | .next     => [.pcInc, .boundary]

end Sys2Proof
end

