-- ==== Sys2Proof/WellFormed.lean ====
section
/-! DEFINITION. Which micro-operations have an encoding: the register index must fit the 8-bit `r` field
(30_encoding.md R42, R44). An index at or above `K` is well formed; it raises IndexOutOfRange when executed. -/

namespace Sys2Proof

/-- The operands fit their fields (R42, R44, R45). Immediates are 16 bits by their type. -/
def Instr.wellFormed : Instr → Bool
  | .regRead i  => decide (i < 256)
  | .regWrite i => decide (i < 256)
  | .sendAlu | .recvAlu | .sendLsu | .recvLsu | .sendPc | .recvPc | .sendIr | .recvIr | .sendLsuAddr => true
  | .seti _ | .sethi _ => true
  | .aluXor | .aluOr | .aluAnd | .aluNot | .aluShift | .aluAdd => true
  | .pcInc | .pcAddOffset | .pcToLsu | .lsuToPc | .pcToIr | .irToPc => true
  | .lsuLoad | .lsuStore | .boundary | .halt => true

end Sys2Proof
end

