-- ==== Sys2Proof/Decode.lean ====
section
/-! DEFINITION. Decoding and encoding of uops (30_encoding.md R41 to R48). Decoding is total: every 32-bit word is
one micro-operation or is refused by the reason of R47 (R48). It reads no state. -/

namespace Sys2Proof

/-- Why a uop is illegal: the cases (a), (b), (c) of R47. -/
inductive IllegalReason where
  /-- (a) the `op` field is not in the table of R46 -/
  | unassignedOp
  /-- (b) the `z` field is not 0 -/
  | nonzeroZ
  /-- (c) a field that the format requires to be 0 is not 0 -/
  | nonzeroUnusedField
deriving DecidableEq, Repr

/-- `op`, bits 31:26 (R42). -/
def opField (uop : Word) : BitVec 6 := uop.extractLsb' 26 6
/-- `z`, bits 25:24 (R42). -/
def zField (uop : Word) : BitVec 2 := uop.extractLsb' 24 2
/-- `r`, bits 23:16 (R42). -/
def rField (uop : Word) : BitVec 8 := uop.extractLsb' 16 8
/-- `imm`, bits 15:0 (R42). -/
def immField (uop : Word) : BitVec 16 := uop.extractLsb' 0 16

/-- A row of the opcode map: a micro-operation of one of the three formats of R43, waiting for the fields the
format uses. -/
inductive OpRow where
  | fmtZ (i : Instr)
  | fmtR (mk : Nat → Instr)
  | fmtI (mk : BitVec 16 → Instr)

/-- The opcode map of R46. -/
def opRow (op : BitVec 6) : Option OpRow :=
  match op with
  | 0x01#6 => some (.fmtZ .sendAlu)
  | 0x02#6 => some (.fmtZ .recvAlu)
  | 0x03#6 => some (.fmtZ .sendLsu)
  | 0x04#6 => some (.fmtZ .recvLsu)
  | 0x05#6 => some (.fmtZ .sendPc)
  | 0x06#6 => some (.fmtZ .recvPc)
  | 0x07#6 => some (.fmtZ .sendIr)
  | 0x08#6 => some (.fmtZ .recvIr)
  | 0x09#6 => some (.fmtZ .sendLsuAddr)
  | 0x0A#6 => some (.fmtR .regRead)
  | 0x0B#6 => some (.fmtR .regWrite)
  | 0x0C#6 => some (.fmtI .seti)
  | 0x0D#6 => some (.fmtI .sethi)
  | 0x10#6 => some (.fmtZ .aluXor)
  | 0x11#6 => some (.fmtZ .aluOr)
  | 0x12#6 => some (.fmtZ .aluAnd)
  | 0x13#6 => some (.fmtZ .aluNot)
  | 0x14#6 => some (.fmtZ .aluShift)
  | 0x15#6 => some (.fmtZ .aluAdd)
  | 0x18#6 => some (.fmtZ .pcInc)
  | 0x19#6 => some (.fmtZ .pcAddOffset)
  | 0x1A#6 => some (.fmtZ .pcToLsu)
  | 0x1B#6 => some (.fmtZ .lsuToPc)
  | 0x1C#6 => some (.fmtZ .pcToIr)
  | 0x1D#6 => some (.fmtZ .irToPc)
  | 0x20#6 => some (.fmtZ .lsuLoad)
  | 0x21#6 => some (.fmtZ .lsuStore)
  | 0x3E#6 => some (.fmtZ .boundary)
  | 0x3F#6 => some (.fmtZ .halt)
  | _ => none

/-- Fill a row from the fields its format uses; the format's other fields must be 0 (R43, R47 (c)). -/
def OpRow.fill (row : OpRow) (r : BitVec 8) (imm : BitVec 16) : Except IllegalReason Instr :=
  match row with
  | .fmtZ i  => if r = 0 ∧ imm = 0 then .ok i else .error .nonzeroUnusedField
  | .fmtR mk => if imm = 0 then .ok (mk r.toNat) else .error .nonzeroUnusedField
  | .fmtI mk => if r = 0 then .ok (mk imm) else .error .nonzeroUnusedField

/-- Decode a uop (R46 to R48). The three checks name the refusal in the order (a), (b), (c) of R47 (log 15). -/
def decode (uop : Word) : Except IllegalReason Instr :=
  match opRow (opField uop) with
  | none => .error .unassignedOp
  | some row => if zField uop = 0 then row.fill (rField uop) (immField uop) else .error .nonzeroZ

/-- The `op` value of each micro-operation (R46). -/
def Instr.opcode : Instr → BitVec 6
  | .sendAlu     => 0x01#6
  | .recvAlu     => 0x02#6
  | .sendLsu     => 0x03#6
  | .recvLsu     => 0x04#6
  | .sendPc      => 0x05#6
  | .recvPc      => 0x06#6
  | .sendIr      => 0x07#6
  | .recvIr      => 0x08#6
  | .sendLsuAddr => 0x09#6
  | .regRead _   => 0x0A#6
  | .regWrite _  => 0x0B#6
  | .seti _      => 0x0C#6
  | .sethi _     => 0x0D#6
  | .aluXor      => 0x10#6
  | .aluOr       => 0x11#6
  | .aluAnd      => 0x12#6
  | .aluNot      => 0x13#6
  | .aluShift    => 0x14#6
  | .aluAdd      => 0x15#6
  | .pcInc       => 0x18#6
  | .pcAddOffset => 0x19#6
  | .pcToLsu     => 0x1A#6
  | .lsuToPc     => 0x1B#6
  | .pcToIr      => 0x1C#6
  | .irToPc      => 0x1D#6
  | .lsuLoad     => 0x20#6
  | .lsuStore    => 0x21#6
  | .boundary    => 0x3E#6
  | .halt        => 0x3F#6

/-- The `r` field of each micro-operation: the register index, or 0 (R42, R44). -/
def Instr.rOperand : Instr → BitVec 8
  | .regRead i  => BitVec.ofNat 8 i
  | .regWrite i => BitVec.ofNat 8 i
  | .sendAlu | .recvAlu | .sendLsu | .recvLsu | .sendPc | .recvPc | .sendIr | .recvIr | .sendLsuAddr => 0
  | .seti _ | .sethi _ => 0
  | .aluXor | .aluOr | .aluAnd | .aluNot | .aluShift | .aluAdd => 0
  | .pcInc | .pcAddOffset | .pcToLsu | .lsuToPc | .pcToIr | .irToPc => 0
  | .lsuLoad | .lsuStore | .boundary | .halt => 0

/-- The `imm` field of each micro-operation: the immediate, or 0 (R42, R45). -/
def Instr.immOperand : Instr → BitVec 16
  | .seti imm  => imm
  | .sethi imm => imm
  | .sendAlu | .recvAlu | .sendLsu | .recvLsu | .sendPc | .recvPc | .sendIr | .recvIr | .sendLsuAddr => 0
  | .regRead _ | .regWrite _ => 0
  | .aluXor | .aluOr | .aluAnd | .aluNot | .aluShift | .aluAdd => 0
  | .pcInc | .pcAddOffset | .pcToLsu | .lsuToPc | .pcToIr | .irToPc => 0
  | .lsuLoad | .lsuStore | .boundary | .halt => 0

/-- The uop of the four fields, `op` in the most significant position (R42). -/
def packFields (op : BitVec 6) (z : BitVec 2) (r : BitVec 8) (imm : BitVec 16) : Word :=
  op ++ z ++ r ++ imm

/-- The uop of a well-formed micro-operation (R42, R43, R46). -/
def encode (i : Instr) : Word := packFields i.opcode 0 i.rOperand i.immOperand

/-- The `mask` of a micro-operation's format (R43). -/
def Instr.mask : Instr → Word
  | .regRead _ | .regWrite _ => 0xFF00FFFF#32
  | .seti _ | .sethi _ => 0xFFFF0000#32
  | .sendAlu | .recvAlu | .sendLsu | .recvLsu | .sendPc | .recvPc | .sendIr | .recvIr | .sendLsuAddr => 0xFFFFFFFF#32
  | .aluXor | .aluOr | .aluAnd | .aluNot | .aluShift | .aluAdd => 0xFFFFFFFF#32
  | .pcInc | .pcAddOffset | .pcToLsu | .lsuToPc | .pcToIr | .irToPc => 0xFFFFFFFF#32
  | .lsuLoad | .lsuStore | .boundary | .halt => 0xFFFFFFFF#32

/-- The `match` column of R43: `op << 26`. -/
def Instr.pattern (i : Instr) : Word := i.opcode.setWidth 32 <<< 26

/-- What the decoder reads from an opcode-table row's bits. A uop is one 32-bit word on the block's `uop` input
(R20, R41), so bit k of `w` is bit k of the uop (log 16). -/
def decodeTableWord (nbits w : Nat) : Option Instr :=
  match decode (BitVec.ofNat 32 (w % 2 ^ nbits)) with
  | .ok i => some i
  | .error _ => none

end Sys2Proof
end

