-- ==== Sys2Proof/Config.lean ====
section
/-! DEFINITION. The implementation parameters of 00_scope.md R1 to R3. The open ones are carried by the state
(log 4), so that a statement about every state holds for every value of them. -/

namespace Sys2Proof

/-- The program counter's increment constant (R2). -/
def Config.pcStep : Word := 0x00000004#32

/-- The largest number of general-purpose registers: the range of the uop's `r` field (R3, R13). -/
def Config.maxK : Nat := 256

/-- Byte order of the external memory: the parameter `ENDIAN` (R3, R31). -/
inductive Endian where
  | little
  | big
deriving DecidableEq, Repr

/-- The kind of a memory access, the second argument of `MEM_OK` (R3). -/
inductive Access where
  | read
  | write
deriving DecidableEq, Repr

/-- Addresses `first` to `last`, both included, at which the external memory does not accept one kind of access. -/
structure Rejected where
  kind  : Access
  first : Nat
  last  : Nat
deriving DecidableEq, Repr

/-- The open parameters of R3 that are not shown by another part of the state: `K` is the length of the register
file and `MEM_INIT` is the memory a state starts with (log 4, log 7). They are fixed for a whole run (R22). -/
structure Params where
  /-- `R0_HARDWIRED`: register 0 reads as zero and ignores writes. -/
  r0Hardwired    : Bool
  /-- `OFFSET_PLUS_STEP`: PC_ADD_OFFSET also adds 4. -/
  offsetPlusStep : Bool
  /-- `PC_RESET`: the program counter after reset. -/
  pcReset        : Word
  /-- `MEM_OK`, as the accesses the memory does not accept (log 6). -/
  memRejects     : List Rejected
  /-- `ENDIAN`. -/
  endian         : Endian
deriving DecidableEq, Repr

/-- The default column of R3; `MEM_OK` and `ENDIAN` have no default there.
DESIGN CHOICE (log 5, unsafe): every aligned access is accepted and the byte order is little. -/
def Config.defaultParams : Params where
  r0Hardwired    := false
  offsetPlusStep := true
  pcReset        := 0x00400000#32
  memRejects     := []
  endian         := .little

/-- The default of `K` (R3). DESIGN CHOICE (log 5, unsafe) as the value at `State.reset`. -/
def Config.defaultK : Nat := 32

/-- What a byte of memory that nothing lists reads as.
DESIGN CHOICE (log 7, unsafe): the spec leaves memory at launch to `MEM_INIT`. -/
def Config.unlistedByte : Byte := 0x00#8

end Sys2Proof
end

