-- ==== Sys2Proof/Machine/State.lean ====
section
/-! DEFINITION. The state of the block (10_state.md R6), its external memory, its inputs and its parameters, as
plain data, and the state right after reset. -/

namespace Sys2Proof.Machine

/-- A cell (00_scope.md R5): a Word, or the spec's mark `⊥` (unwritten). -/
inductive Cell where
  | unwritten
  | word (w : Word)
deriving DecidableEq, Repr

/-- The five values of `run_state` (R18). -/
inductive RunState where
  | running
  | paused
  | stopped
  | halted
  | faulted
deriving DecidableEq, Repr

/-- The eight values of `fault_code` (R17, R101). The last two are reserved: nothing raises them (R107, R108). -/
inductive FaultCode where
  | none
  | illegalMicroOp
  | indexOutOfRange
  | unwrittenRead
  | misaligned
  | memAccess
  | lengthMismatch
  | formatError
deriving DecidableEq, Repr

/-- The inputs, sampled once per step (R20). -/
structure Inputs where
  uop      : Word
  stopReq  : Bool
  pauseReq : Bool
  resume   : Bool
  reset    : Bool
deriving DecidableEq, Repr

/-- Nothing is driven: the all-zero word, which is "a sequencer that drives nothing" (R47), and no request.
DEDUCED (log 2). -/
def Inputs.idle : Inputs := ⟨0x00000000#32, false, false, false, false⟩

/-- The external memory: (address, byte) pairs, addresses strictly rising, none equal to what an unlisted address
reads as (Machine/Memory.lean). -/
abbrev Memory := List Host.Cell

/-- The block (R6), the external memory (R25 to R29), the inputs of the next step and of the later ones
(R20, log 1), and the open parameters (R3, R22, log 4). -/
structure State where
  /-- The bus, the source's "temp" (R7). -/
  bus         : Word
  /-- The ALU's one input and output cell (R9). -/
  alu         : Cell
  /-- The load/store unit's address latch (R10). -/
  lsuAddr     : Cell
  /-- The load/store unit's data latch (R10). -/
  lsuData     : Cell
  /-- The program counter (R11, R24). -/
  pc          : Word
  /-- The instruction register (R12). -/
  ir          : Cell
  /-- The register file `x[0]` .. `x[K-1]` (R13). Its length is the parameter `K` (log 4). -/
  x           : List Cell
  /-- The code of the first fault since reset, or NONE (R17). -/
  faultCode   : FaultCode
  /-- The micro-operation word that raised it (R17). -/
  faultUop    : Word
  /-- The Word the fault reports (R17). -/
  faultInfo   : Word
  /-- The run state (R18). -/
  runState    : RunState
  /-- The change notifications emitted since reset (R19). -/
  notifyCount : Nat
  /-- The external memory `M` (R25, R28). -/
  mem         : Memory
  /-- The inputs the next step samples (R20). -/
  inputs      : Inputs
  /-- The inputs of the steps after that, oldest first (log 1). -/
  later       : List Inputs
  /-- The open parameters, fixed for a run (R3, R22). -/
  params      : Params
deriving DecidableEq, Repr

/-- The parameter `K`, the number of general-purpose registers (R3, R13). -/
def State.k (s : State) : Nat := s.x.length

/-- Why the machine stops without a next state. There is no such reason: every fault of 60_exceptions.md is a
next state (fault entry, R110), and in STOPPED, HALTED and FAULTED a step changes nothing (R91). So this type
has no constructor (log 11, safe: a step of the model always answers). -/
inductive Fault where
deriving DecidableEq, Repr

/-- Why the model has no meaning for an instruction. -/
inductive Refusal where
  /-- Raised by an arm of `exec` whose instruction has no meaning yet. Safe: it claims nothing about the
  hardware. Every instruction has its meaning, so no step answers it (log 11). -/
  | notModelled (mnemonic : String)
deriving DecidableEq, Repr

/-- The block right after reset (R119) under the parameters `p` with `k` registers and the external memory `m`
(reset does not change memory). Nothing is driven on the inputs. -/
def State.launch (p : Params) (k : Nat) (m : Memory) : State where
  bus         := 0x00000000#32
  alu         := .unwritten
  lsuAddr     := .unwritten
  lsuData     := .unwritten
  pc          := p.pcReset
  ir          := .unwritten
  x           := List.replicate k .unwritten
  faultCode   := .none
  faultUop    := 0x00000000#32
  faultInfo   := 0x00000000#32
  runState    := .running
  notifyCount := 0
  mem         := m
  inputs      := .idle
  later       := []
  params      := p

/-- The machine right after reset (R119), under the default parameters of R3 (log 5) and with a memory that lists
nothing (log 7). -/
def State.reset : State := State.launch Config.defaultParams Config.defaultK []

end Sys2Proof.Machine
end

