-- ==== Sys2Proof/Machine/Memory.lean ====
section
/-! DEFINITION. The external memory (20_memory.md): single bytes, whole Words in the byte order of `ENDIAN`, the
canonical form of the list, and `MEM_OK`. -/

namespace Sys2Proof.Machine

/-- The canonical form from address `low` on: addresses strictly rising, inside the 2^32 bytes of the space (R28),
and no entry equal to what an unlisted address reads as. -/
def Memory.wfFrom : Nat → Memory → Bool
  | _, [] => true
  | low, (k, v) :: m => decide (low ≤ k) && decide (k < 2 ^ 32) && decide (v ≠ Config.unlistedByte) && Memory.wfFrom (k + 1) m

/-- The canonical form of a memory. -/
def Memory.wf (m : Memory) : Bool := Memory.wfFrom 0 m

/-- The byte at an address; an unlisted one reads as `Config.unlistedByte` (log 7). -/
def Memory.readByte : Memory → Nat → Byte
  | [], _ => Config.unlistedByte
  | (k, v) :: m, a => if a = k then v else Memory.readByte m a

/-- Put an entry in front unless it is what an unlisted address reads as. -/
def Memory.cons (a : Nat) (b : Byte) (m : Memory) : Memory :=
  if b = Config.unlistedByte then m else (a, b) :: m

/-- Write one byte, keeping the canonical form. -/
def Memory.writeByte : Memory → Nat → Byte → Memory
  | [], a, b => Memory.cons a b []
  | (k, v) :: m, a, b =>
    if a < k then Memory.cons a b ((k, v) :: m)
    else if a = k then Memory.cons a b m
    else (k, v) :: Memory.writeByte m a b

/-- The place, counted from the least significant byte, of the byte that lies at offset `j` of a Word (R31).
PRESUMED (log 9): little means that the least significant byte lies lowest, big that the most significant does. -/
def Endian.lane (e : Endian) (j : Nat) : Nat :=
  match e with
  | .little => j
  | .big    => 3 - j

/-- The byte of `w` that lies at offset `j` of its four. -/
def byteAt (e : Endian) (w : Word) (j : Nat) : Byte := w.extractLsb' (8 * Endian.lane e j) 8

/-- The Word at the four byte addresses from `a` on (R28). -/
def Memory.readWord (e : Endian) (m : Memory) (a : Nat) : Word :=
  match e with
  | .little => Memory.readByte m (a + 3) ++ Memory.readByte m (a + 2) ++ Memory.readByte m (a + 1) ++ Memory.readByte m a
  | .big    => Memory.readByte m a ++ Memory.readByte m (a + 1) ++ Memory.readByte m (a + 2) ++ Memory.readByte m (a + 3)

/-- Write the Word at the four byte addresses from `a` on (R28). -/
def Memory.writeWord (e : Endian) (m : Memory) (a : Nat) (w : Word) : Memory :=
  let m0 := Memory.writeByte m a (byteAt e w 0)
  let m1 := Memory.writeByte m0 (a + 1) (byteAt e w 1)
  let m2 := Memory.writeByte m1 (a + 2) (byteAt e w 2)
  Memory.writeByte m2 (a + 3) (byteAt e w 3)

/-- A range of rejected accesses takes in this one. -/
def rejects (r : Rejected) (a : Word) (k : Access) : Bool :=
  decide (r.kind = k) && decide (r.first ≤ a.toNat) && decide (a.toNat ≤ r.last)

/-- `MEM_OK(a, k)`: the external memory accepts this access (R3, R25, R26). -/
def memOk (p : Params) (a : Word) (k : Access) : Bool := !(p.memRejects.any fun r => rejects r a k)

/-- The address is a multiple of 4: its bits 1:0 are 0 (R32). -/
def aligned (a : Word) : Bool := a.extractLsb' 0 2 == 0#2

end Sys2Proof.Machine
end

