-- ==== Sys2Proof/Machine/WordOps.lean ====
section
/-! DEFINITION. The Word functions of 40_alu.md section 1 and the extensions of 00_scope.md R5. They are pure
functions of Words. -/

namespace Sys2Proof.Machine

/-- `word(n)`: the Word whose unsigned value is `n mod 2^32`, for any integer (R5, R51). -/
def word (n : Int) : Word := BitVec.ofInt 32 n

/-- `add(a, b)`: the sum modulo 2^32 (R53). -/
def wordAdd (a b : Word) : Word := word (a.toNat + b.toNat)

/-- `xor(a, b)`, position for position (R54). -/
def wordXor (a b : Word) : Word := a ^^^ b

/-- `or(a, b)`, position for position (R54). -/
def wordOr (a b : Word) : Word := a ||| b

/-- `and(a, b)`, position for position (R54). -/
def wordAnd (a b : Word) : Word := a &&& b

/-- `not(a)`, the bitwise complement (R55). -/
def wordNot (a : Word) : Word := ~~~a

/-- `shift(v, amt)`: a logical shift, left when the signed amount is non-negative and right when it is negative;
a magnitude of 32 or more gives zero, and the magnitude of -2^31 is exact (R56, D31). -/
def wordShift (v amt : Word) : Word :=
  let s : Int := amt.toInt
  if 0 ≤ s then
    if 32 ≤ s then 0x00000000#32 else word (v.toNat * 2 ^ s.toNat)
  else
    let m : Int := -s
    if 32 ≤ m then 0x00000000#32 else word (v.toNat / 2 ^ m.toNat)

/-- `sext_32(v16)`: copies bit 15 into bits 31:16 (R5). -/
def sext32 (v : BitVec 16) : Word := v.signExtend 32

/-- `zext_32(v)`: fills with zeros (R5). -/
def zext32 (v : BitVec 16) : Word := v.setWidth 32

/-- `imm :: w[15:0]`: replaces the upper half (R4, R45). -/
def setUpperHalf (imm : BitVec 16) (w : Word) : Word := imm ++ w.extractLsb' 0 16

end Sys2Proof.Machine
end

