-- ==== Sys2Proof/Machine/Ops.lean ====
section
/-! DEFINITION. The operations the micro-operations share: notification, raising a fault, fault entry and reset
(the only way out of a fault), the memory port, and the inputs of a step. -/

namespace Sys2Proof.Machine

/-- The numbers of `fault_code` (R101). -/
def FaultCode.number : FaultCode → BitVec 3
  | .none            => 0#3
  | .illegalMicroOp  => 1#3
  | .indexOutOfRange => 2#3
  | .unwrittenRead   => 3#3
  | .misaligned      => 4#3
  | .memAccess       => 5#3
  | .lengthMismatch  => 6#3
  | .formatError     => 7#3

/-- What `raise F(info)` hands to fault entry (R5). -/
structure Raised where
  code : FaultCode
  info : Word
deriving DecidableEq, Repr

/-- `notify()`: one change notification (R97, R19). -/
def State.notify (s : State) : State := { s with notifyCount := s.notifyCount + 1 }

/-- The uop presented in this step (R20, R91). -/
def State.presentedUop (s : State) : Word := s.inputs.uop

/-- Fault entry: records the fault and stops the block; nothing else changes (R110). -/
def State.faultEntry (s : State) (code : FaultCode) (info : Word) : State :=
  { s with
    faultCode := code
    faultUop  := s.presentedUop
    faultInfo := info
    runState  := .faulted }

/-- The reset input: every element takes its reset value, memory and the parameters stay (R119, R22). It is the
only way out of FAULTED (R111). -/
def State.resetBlock (s : State) : State :=
  { s with
    bus         := 0x00000000#32
    alu         := .unwritten
    lsuAddr     := .unwritten
    lsuData     := .unwritten
    pc          := s.params.pcReset
    ir          := .unwritten
    x           := List.replicate s.k .unwritten
    faultCode   := .none
    faultUop    := 0x00000000#32
    faultInfo   := 0x00000000#32
    runState    := .running
    notifyCount := 0 }

/-- A micro-operation's rule either completes with all its writes or raises before any of them (R92). -/
abbrev RuleResult := Except Raised State

/-- Perform a rule in state `s`: a raise is fault entry in `s` itself, so none of the rule's writes happen
(R92, R110). -/
def perform (s : State) (r : RuleResult) : Host.Outcome State Fault Refusal :=
  match r with
  | .ok t    => .next t
  | .error f => .next (s.faultEntry f.code f.info)

/-- `MemRead(a, 4)`: alignment first, then `MEM_OK` (R25). -/
def memRead (s : State) (a : Word) : Except Raised Word :=
  if !aligned a then .error ⟨.misaligned, a⟩
  else if !memOk s.params a .read then .error ⟨.memAccess, a⟩
  else .ok (Memory.readWord s.params.endian s.mem a.toNat)

/-- `MemWrite(a, 4, v)`: alignment first, then `MEM_OK` (R26). -/
def memWrite (s : State) (a v : Word) : RuleResult :=
  if !aligned a then .error ⟨.misaligned, a⟩
  else if !memOk s.params a .write then .error ⟨.memAccess, a⟩
  else .ok { s with mem := Memory.writeWord s.params.endian s.mem a.toNat v }

/-- A step has sampled its inputs: the next step samples the next ones, or nothing driven when none are left
(R20, log 1, log 2). -/
def State.advance (s : State) : State :=
  { s with inputs := s.later.headD .idle, later := s.later.tail }

/-- The inputs of the step are used up, whatever the outcome's state is. -/
def advanceOutcome (o : Host.Outcome State Fault Refusal) : Host.Outcome State Fault Refusal :=
  match o with
  | .next s    => .next s.advance
  | .fault r   => .fault r
  | .refused r => .refused r

/-- Present a uop, with the block ready to perform it in the next step: RUNNING and no reset (R91). The other
inputs stay. -/
def State.presentUop (s : State) (uop : Word) : State :=
  { s with
    runState := .running
    inputs   := { s.inputs with uop := uop, reset := false } }

end Sys2Proof.Machine
end

