-- ==== Sys2Proof/Machine/Operands.lean ====
section
/-! DEFINITION. The operands of micro-operations: the value of a cell, and general-purpose registers. There is
no flag to compute (10_state.md R16). -/

namespace Sys2Proof.Machine

/-- The cell number of `alu` (R104). -/
def aluCell : Word := 0x00000100#32
/-- The cell number of `lsu_addr` (R104). -/
def lsuAddrCell : Word := 0x00000101#32
/-- The cell number of `lsu_data` (R104). -/
def lsuDataCell : Word := 0x00000102#32
/-- The cell number of `ir` (R104). -/
def irCell : Word := 0x00000103#32

/-- `val(c)`: the Word in cell `c`, whose number is `n`; `⊥` raises UnwrittenRead(n) (R5, R104). -/
def val (c : Cell) (n : Word) : Except Raised Word :=
  match c with
  | .unwritten => .error ⟨.unwrittenRead, n⟩
  | .word w    => .ok w

/-- What register `i` shows: the hard-wired register 0 shows zero and has no storage (R13, R119, log 8). -/
def State.regCell (s : State) (i : Nat) : Cell :=
  if s.params.r0Hardwired && i == 0 then .word 0x00000000#32 else s.x.getD i .unwritten

/-- `readReg(i)`: the bounds check, the hard-wired zero, the unwritten check, in that order (R14). -/
def readReg (s : State) (i : Nat) : Except Raised Word :=
  if s.k ≤ i then .error ⟨.indexOutOfRange, word i⟩
  else val (s.regCell i) (word i)

/-- `writeReg(i, w)`: the bounds check; a write to the hard-wired register 0 is discarded (R15). -/
def writeReg (s : State) (i : Nat) (w : Word) : RuleResult :=
  if s.k ≤ i then .error ⟨.indexOutOfRange, word i⟩
  else if s.params.r0Hardwired && i == 0 then .ok s
  else .ok { s with x := s.x.set i (.word w) }

end Sys2Proof.Machine
end

