-- ==== Sys2Proof/Machine/Alu.lean ====
section
/-! DEFINITION. The ALU micro-operations: the meanings of 40_alu.md section 2. -/

namespace Sys2Proof.Machine

/-- The convention of R58 for two operands: `alu <- f(val(alu), bus); notify()`. -/
def aluBinary (f : Word → Word → Word) (s : State) : RuleResult := do
  let a ← val s.alu aluCell
  return { s with alu := .word (f a s.bus) }.notify

/-- The convention of R58 for one operand: `alu <- f(val(alu)); notify()`. -/
def aluUnary (f : Word → Word) (s : State) : RuleResult := do
  let a ← val s.alu aluCell
  return { s with alu := .word (f a) }.notify

/-- ALU_XOR (R59). -/
def execAluXor (s : State) : Host.Outcome State Fault Refusal := perform s (aluBinary wordXor s)

/-- ALU_OR (R60). -/
def execAluOr (s : State) : Host.Outcome State Fault Refusal := perform s (aluBinary wordOr s)

/-- ALU_AND (R61). -/
def execAluAnd (s : State) : Host.Outcome State Fault Refusal := perform s (aluBinary wordAnd s)

/-- ALU_NOT (R62); the bus is not read. -/
def execAluNot (s : State) : Host.Outcome State Fault Refusal := perform s (aluUnary wordNot s)

/-- ALU_SHIFT (R63): the value is `alu`, the signed amount is the bus. -/
def execAluShift (s : State) : Host.Outcome State Fault Refusal := perform s (aluBinary wordShift s)

/-- ALU_ADD (R64); carry and overflow are discarded. -/
def execAluAdd (s : State) : Host.Outcome State Fault Refusal := perform s (aluBinary wordAdd s)

end Sys2Proof.Machine
end

