-- ==== Sys2Proof/Machine/BusTransfers.lean ====
section
/-! DEFINITION. Bus transfers, register access and bus constants: the meanings of 42_bus_and_registers.md. -/

namespace Sys2Proof.Machine

/-- SEND_ALU (R74). -/
def execSendAlu (s : State) : Host.Outcome State Fault Refusal :=
  perform s (.ok { s with alu := .word s.bus }.notify)

/-- RECV_ALU (R75). -/
def execRecvAlu (s : State) : Host.Outcome State Fault Refusal :=
  perform s do
    let v ← val s.alu aluCell
    return { s with bus := v }.notify

/-- SEND_LSU (R76). -/
def execSendLsu (s : State) : Host.Outcome State Fault Refusal :=
  perform s (.ok { s with lsuData := .word s.bus }.notify)

/-- SEND_LSU_ADDR (R77); the address is not checked here. -/
def execSendLsuAddr (s : State) : Host.Outcome State Fault Refusal :=
  perform s (.ok { s with lsuAddr := .word s.bus }.notify)

/-- RECV_LSU (R78). -/
def execRecvLsu (s : State) : Host.Outcome State Fault Refusal :=
  perform s do
    let v ← val s.lsuData lsuDataCell
    return { s with bus := v }.notify

/-- SEND_PC, the direct jump path (R79); any value is accepted. -/
def execSendPc (s : State) : Host.Outcome State Fault Refusal :=
  perform s (.ok { s with pc := s.bus }.notify)

/-- RECV_PC (R80). -/
def execRecvPc (s : State) : Host.Outcome State Fault Refusal :=
  perform s (.ok { s with bus := s.pc }.notify)

/-- SEND_IR (R81). -/
def execSendIr (s : State) : Host.Outcome State Fault Refusal :=
  perform s (.ok { s with ir := .word s.bus }.notify)

/-- RECV_IR (R82); no field is extracted. -/
def execRecvIr (s : State) : Host.Outcome State Fault Refusal :=
  perform s do
    let v ← val s.ir irCell
    return { s with bus := v }.notify

/-- REG_READ r<i> (R83): one notification for the read and one for the bus write. -/
def execRegRead (i : Nat) (s : State) : Host.Outcome State Fault Refusal :=
  perform s do
    let v ← readReg s i
    return { s.notify with bus := v }.notify

/-- REG_WRITE r<i> (R84): a discarded write still notifies. -/
def execRegWrite (i : Nat) (s : State) : Host.Outcome State Fault Refusal :=
  perform s do
    let t ← writeReg s i s.bus
    return t.notify

/-- SETI imm (R85). -/
def execSeti (imm : BitVec 16) (s : State) : Host.Outcome State Fault Refusal :=
  perform s (.ok { s with bus := sext32 imm }.notify)

/-- SETHI imm (R86). -/
def execSethi (imm : BitVec 16) (s : State) : Host.Outcome State Fault Refusal :=
  perform s (.ok { s with bus := setUpperHalf imm s.bus }.notify)

end Sys2Proof.Machine
end

