-- ==== Sys2Proof/Machine/LoadStore.lean ====
section
/-! DEFINITION. The load/store unit's micro-operations: the meanings of 43_load_store.md. -/

namespace Sys2Proof.Machine

/-- LSU_LOAD (R87). -/
def execLsuLoad (s : State) : Host.Outcome State Fault Refusal :=
  perform s do
    let a ← val s.lsuAddr lsuAddrCell
    let v ← memRead s a
    return { s with lsuData := .word v }.notify

/-- LSU_STORE (R88): the address cell is read before the data cell. -/
def execLsuStore (s : State) : Host.Outcome State Fault Refusal :=
  perform s do
    let a ← val s.lsuAddr lsuAddrCell
    let v ← val s.lsuData lsuDataCell
    let t ← memWrite s a v
    return t.notify

end Sys2Proof.Machine
end

