-- ==== Sys2Proof/Machine/ProgramCounter.lean ====
section
/-! DEFINITION. The program counter's own micro-operations: the meanings of 41_program_counter.md. The link
transfers go through the bus (90_conflicts.md C1). -/

namespace Sys2Proof.Machine

/-- PC_INC (R66). -/
def execPcInc (s : State) : Host.Outcome State Fault Refusal :=
  perform s (.ok { s with pc := wordAdd s.pc Config.pcStep }.notify)

/-- PC_ADD_OFFSET (R67), with both code paths of `OFFSET_PLUS_STEP` (90_conflicts.md C4). -/
def execPcAddOffset (s : State) : Host.Outcome State Fault Refusal :=
  let target := wordAdd s.pc s.bus
  perform s (.ok { s with pc := if s.params.offsetPlusStep then wordAdd target Config.pcStep else target }.notify)

/-- PC_TO_LSU (R68). -/
def execPcToLsu (s : State) : Host.Outcome State Fault Refusal :=
  let t := { s with bus := s.pc }.notify
  perform s (.ok { t with lsuAddr := .word t.bus }.notify)

/-- LSU_TO_PC (R69). -/
def execLsuToPc (s : State) : Host.Outcome State Fault Refusal :=
  perform s do
    let v ← val s.lsuData lsuDataCell
    let t := { s with bus := v }.notify
    return { t with pc := v }.notify

/-- PC_TO_IR (R70). -/
def execPcToIr (s : State) : Host.Outcome State Fault Refusal :=
  let t := { s with bus := s.pc }.notify
  perform s (.ok { t with ir := .word t.bus }.notify)

/-- IR_TO_PC (R71); the whole Word becomes the pc. -/
def execIrToPc (s : State) : Host.Outcome State Fault Refusal :=
  perform s do
    let v ← val s.ir irCell
    let t := { s with bus := v }.notify
    return { t with pc := v }.notify

end Sys2Proof.Machine
end

