-- ==== Sys2Proof/Machine/Sequencing.lean ====
section
/-! DEFINITION. Instruction boundary and end of program: the meanings of 44_sequencing.md section 2. Neither
notifies: a run-state change is no datapath change (D27). -/

namespace Sys2Proof.Machine

/-- BOUNDARY (R93): stop wins over pause; with neither request nothing changes. -/
def execBoundary (s : State) : Host.Outcome State Fault Refusal :=
  perform s (.ok
    (if s.inputs.stopReq then { s with runState := .stopped }
     else if s.inputs.pauseReq then { s with runState := .paused }
     else s))

/-- HALT (R94). -/
def execHalt (s : State) : Host.Outcome State Fault Refusal :=
  perform s (.ok { s with runState := .halted })

end Sys2Proof.Machine
end

