-- ==== Sys2Proof/Machine/Dispatch.lean ====
section
/-! DEFINITION. The meaning of each micro-operation, one arm per constructor of Instr (44_sequencing.md R91). -/

namespace Sys2Proof.Machine

def exec (i : Instr) (s : State) : Host.Outcome State Fault Refusal :=
  match i with
  | .sendAlu => Sys2Proof.Machine.execSendAlu s
  | .recvAlu => Sys2Proof.Machine.execRecvAlu s
  | .sendLsu => Sys2Proof.Machine.execSendLsu s
  | .recvLsu => Sys2Proof.Machine.execRecvLsu s
  | .sendPc => Sys2Proof.Machine.execSendPc s
  | .recvPc => Sys2Proof.Machine.execRecvPc s
  | .sendIr => Sys2Proof.Machine.execSendIr s
  | .recvIr => Sys2Proof.Machine.execRecvIr s
  | .sendLsuAddr => Sys2Proof.Machine.execSendLsuAddr s
  | .regRead n => Sys2Proof.Machine.execRegRead n s
  | .regWrite n => Sys2Proof.Machine.execRegWrite n s
  | .seti imm => Sys2Proof.Machine.execSeti imm s
  | .sethi imm => Sys2Proof.Machine.execSethi imm s
  | .aluXor => Sys2Proof.Machine.execAluXor s
  | .aluOr => Sys2Proof.Machine.execAluOr s
  | .aluAnd => Sys2Proof.Machine.execAluAnd s
  | .aluNot => Sys2Proof.Machine.execAluNot s
  | .aluShift => Sys2Proof.Machine.execAluShift s
  | .aluAdd => Sys2Proof.Machine.execAluAdd s
  | .pcInc => Sys2Proof.Machine.execPcInc s
  | .pcAddOffset => Sys2Proof.Machine.execPcAddOffset s
  | .pcToLsu => Sys2Proof.Machine.execPcToLsu s
  | .lsuToPc => Sys2Proof.Machine.execLsuToPc s
  | .pcToIr => Sys2Proof.Machine.execPcToIr s
  | .irToPc => Sys2Proof.Machine.execIrToPc s
  | .lsuLoad => Sys2Proof.Machine.execLsuLoad s
  | .lsuStore => Sys2Proof.Machine.execLsuStore s
  | .boundary => Sys2Proof.Machine.execBoundary s
  | .halt => Sys2Proof.Machine.execHalt s

end Sys2Proof.Machine
end

