-- ==== Sys2Proof/Machine/RunControl.lean ====
section
/-! DEFINITION. What one step does to the block in each run state (44_sequencing.md R91). -/

namespace Sys2Proof.Machine

/-- A step in RUNNING: decode the presented uop and perform its rule; an illegal uop raises IllegalMicroOp with the
uop as its information (R91, R102). -/
def runningStep (s : State) : Host.Outcome State Fault Refusal :=
  match decode s.presentedUop with
  | .error _ => .next (s.faultEntry .illegalMicroOp s.presentedUop)
  | .ok i    => exec i s

/-- A step in PAUSED: `resume` returns to RUNNING, and without it the block holds. No micro-operation runs
(R91, R96). -/
def State.pausedStep (s : State) : State :=
  if s.inputs.resume then { s with runState := .running } else s

/-- What a step does to the block: reset before all else, then what the run state allows. STOPPED, HALTED and
FAULTED change nothing (R91). -/
def blockStep (s : State) : Host.Outcome State Fault Refusal :=
  if s.inputs.reset then .next s.resetBlock
  else
    match s.runState with
    | .running => runningStep s
    | .paused  => .next s.pausedStep
    | .stopped => .next s
    | .halted  => .next s
    | .faulted => .next s

end Sys2Proof.Machine
end

