-- ==== Sys2Proof/Machine/Step.lean ====
section
/-! DEFINITION. One step of the machine: the block's step (44_sequencing.md R91), after which the inputs it sampled
are used up (10_state.md R20, log 1). -/

namespace Sys2Proof.Machine

/-- One step (R91). -/
def step (s : State) : Host.Outcome State Fault Refusal := advanceOutcome (blockStep s)

/-- The state whose very next step performs the uop `w`: it stands for the sequencer presenting it (R91, log 3). -/
def State.withFetchWord (s : State) (nbits w : Nat) : State :=
  s.presentUop (BitVec.ofNat 32 (w % 2 ^ nbits))

end Sys2Proof.Machine
end

