-- ==== Sys2Proof/Machine/Assembler.lean ====
section
/-! DEFINITION. The written form of micro-operations (30_encoding.md R49, R50): one line to the micro-operations it
stands for, and back. What R49 leaves open of the spelling is log 14. -/

namespace Sys2Proof.Machine

/-- The mnemonic of R46, upper case (R49). -/
def mnemonicText : Instr → String
  | .sendAlu     => "SEND_ALU"
  | .recvAlu     => "RECV_ALU"
  | .sendLsu     => "SEND_LSU"
  | .recvLsu     => "RECV_LSU"
  | .sendPc      => "SEND_PC"
  | .recvPc      => "RECV_PC"
  | .sendIr      => "SEND_IR"
  | .recvIr      => "RECV_IR"
  | .sendLsuAddr => "SEND_LSU_ADDR"
  | .regRead _   => "REG_READ"
  | .regWrite _  => "REG_WRITE"
  | .seti _      => "SETI"
  | .sethi _     => "SETHI"
  | .aluXor      => "ALU_XOR"
  | .aluOr       => "ALU_OR"
  | .aluAnd      => "ALU_AND"
  | .aluNot      => "ALU_NOT"
  | .aluShift    => "ALU_SHIFT"
  | .aluAdd      => "ALU_ADD"
  | .pcInc       => "PC_INC"
  | .pcAddOffset => "PC_ADD_OFFSET"
  | .pcToLsu     => "PC_TO_LSU"
  | .lsuToPc     => "LSU_TO_PC"
  | .pcToIr      => "PC_TO_IR"
  | .irToPc      => "IR_TO_PC"
  | .lsuLoad     => "LSU_LOAD"
  | .lsuStore    => "LSU_STORE"
  | .boundary    => "BOUNDARY"
  | .halt        => "HALT"

/-- The micro-operations of format Z, which are written without an operand (R43, R49). -/
def formatZ : List Instr :=
  [.sendAlu, .recvAlu, .sendLsu, .recvLsu, .sendPc, .recvPc, .sendIr, .recvIr, .sendLsuAddr] ++
  [.aluXor, .aluOr, .aluAnd, .aluNot, .aluShift, .aluAdd] ++
  [.pcInc, .pcAddOffset, .pcToLsu, .lsuToPc, .pcToIr, .irToPc] ++
  [.lsuLoad, .lsuStore, .boundary, .halt]

/-- The digit a character is in base 16, with letters of either case. -/
def hexDigit (c : Char) : Option Nat :=
  if '0' ≤ c ∧ c ≤ '9' then some (c.toNat - '0'.toNat)
  else if 'a' ≤ c ∧ c ≤ 'f' then some (c.toNat - 'a'.toNat + 10)
  else if 'A' ≤ c ∧ c ≤ 'F' then some (c.toNat - 'A'.toNat + 10)
  else none

/-- The number that digits in a base continue from `n`. -/
def digitsFrom (base : Nat) : List Char → Nat → Option Nat
  | [], n => some n
  | c :: cs, n =>
    match hexDigit c with
    | none   => none
    | some d => if d < base then digitsFrom base cs (n * base + d) else none

/-- A number without a sign in decimal. -/
def decimalNumber (cs : List Char) : Option Nat :=
  match cs with
  | [] => none
  | _  => digitsFrom 10 cs 0

/-- A number without a sign, in decimal or `0x` hexadecimal (R49). -/
def unsignedNumber (cs : List Char) : Option Nat :=
  match cs with
  | '0' :: 'x' :: c :: h => digitsFrom 16 (c :: h) 0
  | _ => decimalNumber cs

/-- A number between two bounds. -/
def numberIn (low high : Nat) (n : Option Nat) : Option Nat :=
  match n with
  | none   => none
  | some v => if low ≤ v ∧ v ≤ high then some v else none

/-- The register operand `r<i>`, `i` in decimal from 0 to 255 (R49). -/
def registerOperand (cs : List Char) : Option Nat :=
  match cs with
  | 'r' :: ds => numberIn 0 255 (decimalNumber ds)
  | _ => none

/-- The immediate of SETHI: 0 to 0xFFFF (R49). -/
def unsignedImmediate (cs : List Char) : Option (BitVec 16) :=
  (numberIn 0 0xFFFF (unsignedNumber cs)).map (BitVec.ofNat 16)

/-- A negative decimal value `-n` of 16 bits, for `1 ≤ n ≤ 2^15`: it stands for `2^16 - n` (R49). -/
def negativeImmediate (ds : List Char) : Option (BitVec 16) :=
  (numberIn 1 (2 ^ 15) (decimalNumber ds)).map fun n => BitVec.ofNat 16 (2 ^ 16 - n)

/-- The immediate of SETI: that of SETHI, or a negative decimal value (R49). -/
def signedImmediate (cs : List Char) : Option (BitVec 16) :=
  match cs with
  | '-' :: ds => negativeImmediate ds
  | _ => unsignedImmediate cs

/-- The constant of LI16: -32768 to 32767 (R50). -/
def li16Constant (cs : List Char) : Option (BitVec 16) :=
  match cs with
  | '-' :: ds => negativeImmediate ds
  | _ => (numberIn 0 32767 (unsignedNumber cs)).map (BitVec.ofNat 16)

/-- The 32-bit constant of LI (R50, log 14). -/
def liConstant (cs : List Char) : Option Word :=
  (numberIn 0 0xFFFFFFFF (unsignedNumber cs)).map (BitVec.ofNat 32)

/-- A finished token in front of the rest; no characters make no token. -/
def closeToken (reversed : List Char) (rest : List (List Char)) : List (List Char) :=
  match reversed with
  | [] => rest
  | _  => reversed.reverse :: rest

/-- The tokens of a line: separated by blanks, a comma being a token of its own. -/
def tokensFrom : List Char → List Char → List (List Char)
  | [], cur => closeToken cur []
  | c :: cs, cur =>
    if c = ' ' ∨ c = '\t' then closeToken cur (tokensFrom cs [])
    else if c = ',' then closeToken cur ([','] :: tokensFrom cs [])
    else tokensFrom cs (c :: cur)

/-- The tokens of a line, without the text after `;` (R49). -/
def lineTokens (line : List Char) : List (List Char) := tokensFrom (line.takeWhile (· != ';')) []

/-- A line without an operand: a micro-operation of format Z, or FETCH or NEXT (R49, R50). -/
def plainLine (m : List Char) : Option (List Instr) :=
  if m = "FETCH".toList then some (Pseudo.expand .fetch)
  else if m = "NEXT".toList then some (Pseudo.expand .next)
  else (formatZ.find? fun i => (mnemonicText i).toList == m).map fun i => [i]

/-- A line with one operand: formats R and I, or LI or LI16 (R49, R50). -/
def operandLine (m o : List Char) : Option (List Instr) :=
  if m = "REG_READ".toList then (registerOperand o).map fun i => [.regRead i]
  else if m = "REG_WRITE".toList then (registerOperand o).map fun i => [.regWrite i]
  else if m = "SETI".toList then (signedImmediate o).map fun v => [.seti v]
  else if m = "SETHI".toList then (unsignedImmediate o).map fun v => [.sethi v]
  else if m = "LI".toList then (liConstant o).map fun c => Pseudo.expand (.li c)
  else if m = "LI16".toList then (li16Constant o).map fun c => Pseudo.expand (.li16 c)
  else none

/-- The line `MOVE r<d>, r<s>` (R50). -/
def moveLine (m d s : List Char) : Option (List Instr) :=
  if m = "MOVE".toList then
    match registerOperand d, registerOperand s with
    | some i, some j => some (Pseudo.expand (.move i j))
    | _, _ => none
  else none

/-- The micro-operations a line stands for, in order; an empty line or a comment stands for none, and a line that
R49 and R50 do not give is refused. -/
def assembleLine (line : List Char) : Option (List Instr) :=
  match lineTokens line with
  | [] => some []
  | [m] => plainLine m
  | [m, o] => operandLine m o
  | [m, d, [','], s] => moveLine m d s
  | _ => none

/-- The uops of a text, one line at a time (R49). -/
def assemble : List (List Char) → Option (List Word)
  | [] => some []
  | l :: ls =>
    match assembleLine l, assemble ls with
    | some is, some ws => some (is.map encode ++ ws)
    | _, _ => none

/-- A digit below 16 as a character. -/
def digitChar (n : Nat) : Char := Char.ofNat (if n < 10 then '0'.toNat + n else 'A'.toNat + (n - 10))

/-- A number below 1000 in decimal, without leading zeros. -/
def decimalText (n : Nat) : List Char :=
  if n < 10 then [digitChar n]
  else if n < 100 then [digitChar (n / 10), digitChar (n % 10)]
  else [digitChar (n / 100), digitChar (n / 10 % 10), digitChar (n % 10)]

/-- A 16-bit immediate as `0x` and four hexadecimal digits. -/
def hexText (v : BitVec 16) : List Char :=
  let n := v.toNat
  ['0', 'x', digitChar (n / 4096), digitChar (n / 256 % 16), digitChar (n / 16 % 16), digitChar (n % 16)]

/-- The operand of a micro-operation as it is written (R49). -/
def operandText : Instr → List Char
  | .regRead i  => ' ' :: 'r' :: decimalText i
  | .regWrite i => ' ' :: 'r' :: decimalText i
  | .seti v     => ' ' :: hexText v
  | .sethi v    => ' ' :: hexText v
  | .sendAlu | .recvAlu | .sendLsu | .recvLsu | .sendPc | .recvPc | .sendIr | .recvIr | .sendLsuAddr => []
  | .aluXor | .aluOr | .aluAnd | .aluNot | .aluShift | .aluAdd => []
  | .pcInc | .pcAddOffset | .pcToLsu | .lsuToPc | .pcToIr | .irToPc => []
  | .lsuLoad | .lsuStore | .boundary | .halt => []

/-- A micro-operation as a line (R49). -/
def lineText (i : Instr) : List Char := (mnemonicText i).toList ++ operandText i

end Sys2Proof.Machine
end

