-- ==== Sys2Proof/Machine/Ports.lean ====
section
/-! DEFINITION. The outputs of the block (10_state.md R21, 44_sequencing.md R97, R99): what an observer reads on the
ports between two steps, and the `notify` strobe of a step. Observers write nothing. -/

namespace Sys2Proof.Machine

/-- The observation ports: every element of R6, and `ir_out` (R21). -/
inductive Port where
  | bus
  | alu
  | lsuAddr
  | lsuData
  | pc
  | ir
  | x (i : Nat)
  | faultCode
  | faultUop
  | faultInfo
  | runState
  | notifyCount
  | irOut
deriving DecidableEq, Repr

/-- What a port shows; an unwritten cell shows as `⊥` (R21). -/
inductive PortValue where
  | word (w : Word)
  | unwritten
  | code (c : BitVec 3)
  | run (r : RunState)
  | count (n : Nat)
deriving DecidableEq, Repr

/-- A cell on its port. -/
def portOfCell (c : Cell) : PortValue :=
  match c with
  | .unwritten => .unwritten
  | .word w    => .word w

/-- The value of a port between steps (R21, R99); there is no port for a register at or above `K`. -/
def State.port (s : State) (p : Port) : Option PortValue :=
  match p with
  | .bus         => some (.word s.bus)
  | .alu         => some (portOfCell s.alu)
  | .lsuAddr     => some (portOfCell s.lsuAddr)
  | .lsuData     => some (portOfCell s.lsuData)
  | .pc          => some (.word s.pc)
  | .ir          => some (portOfCell s.ir)
  | .x i         => if i < s.k then some (portOfCell (s.regCell i)) else none
  | .faultCode   => some (.code (FaultCode.number s.faultCode))
  | .faultUop    => some (.word s.faultUop)
  | .faultInfo   => some (.word s.faultInfo)
  | .runState    => some (.run s.runState)
  | .notifyCount => some (.count s.notifyCount)
  | .irOut       => some (portOfCell s.ir)

/-- The `notify` output of the step from `before` to `after`: high exactly when the step notified, which the
counter shows (R19, R21, R97). DEDUCED (log 13). -/
def notifyStrobe (before after : State) : Bool := decide (before.notifyCount < after.notifyCount)

end Sys2Proof.Machine
end

