-- ==== Sys2Proof/Safety.lean ====
section
/-! DEFINITION. The terms the statements use: the end of a run, the tables of the spec that speak about all
micro-operations, the invariant of the block, and the duties the spec puts on the sequencer and the host. -/

namespace Sys2Proof.Machine

/-- A run ends when the run state is HALTED, STOPPED or FAULTED (R100). -/
def State.ended (s : State) : Bool :=
  match s.runState with
  | .halted | .stopped | .faulted => true
  | .running | .paused => false

/-- A run has completed when it ends HALTED without a fault (R100). -/
def State.completed (s : State) : Bool := s.runState == .halted && s.faultCode == .none

/-- This step performs a micro-operation, so the presented uop is consumed (R91). -/
def State.performsUop (s : State) : Bool := !s.inputs.reset && s.runState == .running

/-- The uops that R47 calls illegal, by the numbers of its cases (a), (b) and (c) and of R42 and R46. It does not
use the decoder. -/
def illegalUop (uop : Word) : Bool :=
  let op := uop.toNat / 2 ^ 26
  let z := uop.toNat / 2 ^ 24 % 4
  let r := uop.toNat / 2 ^ 16 % 256
  let imm := uop.toNat % 2 ^ 16
  [0x00, 0x0E, 0x0F, 0x16, 0x17, 0x1E, 0x1F].contains op || (decide (0x22 ≤ op) && decide (op ≤ 0x3D)) ||
  decide (z ≠ 0) || (decide (r ≠ 0) && !([0x0A, 0x0B].contains op)) || (decide (imm ≠ 0) && !([0x0C, 0x0D].contains op))

/-- The number of notifications of a micro-operation that completes: the table of R98. -/
def notifications : Instr → Nat
  | .sendAlu | .recvAlu | .sendLsu | .sendLsuAddr | .recvLsu | .sendPc | .recvPc | .sendIr | .recvIr => 1
  | .regRead _ => 2
  | .regWrite _ => 1
  | .seti _ | .sethi _ => 1
  | .aluXor | .aluOr | .aluAnd | .aluNot | .aluShift | .aluAdd => 1
  | .pcInc | .pcAddOffset => 1
  | .pcToLsu | .lsuToPc | .pcToIr | .irToPc => 2
  | .lsuLoad | .lsuStore => 1
  | .boundary | .halt => 0

/-- The micro-operations that write `bus`: the list of R123. -/
def writesBus : Instr → Bool
  | .recvAlu | .recvLsu | .recvPc | .recvIr => true
  | .regRead _ | .seti _ | .sethi _ => true
  | .pcToLsu | .lsuToPc | .pcToIr | .irToPc => true
  | .sendAlu | .sendLsu | .sendLsuAddr | .sendPc | .sendIr | .regWrite _ => false
  | .aluXor | .aluOr | .aluAnd | .aluNot | .aluShift | .aluAdd => false
  | .pcInc | .pcAddOffset | .lsuLoad | .lsuStore | .boundary | .halt => false

/-- The cells whose value a micro-operation needs, in the order its rule reads them, each with its number: the
second table of R104. -/
def cellsRead (s : State) : Instr → List (Cell × Word)
  | .recvAlu | .aluXor | .aluOr | .aluAnd | .aluNot | .aluShift | .aluAdd => [(s.alu, aluCell)]
  | .recvLsu | .lsuToPc => [(s.lsuData, lsuDataCell)]
  | .lsuLoad => [(s.lsuAddr, lsuAddrCell)]
  | .lsuStore => [(s.lsuAddr, lsuAddrCell), (s.lsuData, lsuDataCell)]
  | .recvIr | .irToPc => [(s.ir, irCell)]
  | .regRead i => [(s.regCell i, word i)]
  | .sendAlu | .sendLsu | .sendLsuAddr | .sendPc | .recvPc | .sendIr | .regWrite _ | .seti _ | .sethi _ => []
  | .pcInc | .pcAddOffset | .pcToLsu | .pcToIr | .boundary | .halt => []

/-- The register index a micro-operation names (R103). -/
def indexNamed : Instr → Option Nat
  | .regRead i | .regWrite i => some i
  | .sendAlu | .recvAlu | .sendLsu | .recvLsu | .sendPc | .recvPc | .sendIr | .recvIr | .sendLsuAddr => none
  | .seti _ | .sethi _ => none
  | .aluXor | .aluOr | .aluAnd | .aluNot | .aluShift | .aluAdd => none
  | .pcInc | .pcAddOffset | .pcToLsu | .lsuToPc | .pcToIr | .irToPc => none
  | .lsuLoad | .lsuStore | .boundary | .halt => none

/-- The kind of the memory access a micro-operation makes (R27). -/
def accessMade : Instr → Option Access
  | .lsuLoad => some .read
  | .lsuStore => some .write
  | .sendAlu | .recvAlu | .sendLsu | .recvLsu | .sendPc | .recvPc | .sendIr | .recvIr | .sendLsuAddr => none
  | .regRead _ | .regWrite _ | .seti _ | .sethi _ => none
  | .aluXor | .aluOr | .aluAnd | .aluNot | .aluShift | .aluAdd => none
  | .pcInc | .pcAddOffset | .pcToLsu | .lsuToPc | .pcToIr | .irToPc => none
  | .boundary | .halt => none

/-- The first unwritten cell that a micro-operation needs, by its number (R104, R109). -/
def firstUnwritten (s : State) (i : Instr) : Option Word :=
  ((cellsRead s i).find? fun c => c.1 == .unwritten).map Prod.snd

/-- The fault that the micro-operation `i` raises in `s`, by the conditions and the priority of R101 to R109, or
none. It reads the fault tables and not the meanings. -/
def expectedFault (s : State) (i : Instr) : Option Raised :=
  match indexNamed i with
  | some n =>
    if s.k ≤ n then some ⟨.indexOutOfRange, word n⟩
    else (firstUnwritten s i).map fun c => ⟨.unwrittenRead, c⟩
  | none =>
    match firstUnwritten s i with
    | some c => some ⟨.unwrittenRead, c⟩
    | none =>
      match accessMade i, s.lsuAddr with
      | some kind, .word a =>
        if a.toNat % 4 ≠ 0 then some ⟨.misaligned, a⟩
        else if memOk s.params a kind = false then some ⟨.memAccess, a⟩
        else none
      | _, _ => none

/-- The fault record says why the block, as it now stands, stopped (R17, R101 to R109): with no fault it is all zero,
and otherwise the recorded uop raises exactly the recorded fault in this very state. -/
def State.faultExplained (s : State) : Prop :=
  match s.faultCode with
  | .none           => s.faultUop = 0x00000000#32 ∧ s.faultInfo = 0x00000000#32
  | .illegalMicroOp => (∃ e, decode s.faultUop = .error e) ∧ s.faultInfo = s.faultUop
  | code            => ∃ i, decode s.faultUop = .ok i ∧ expectedFault s i = some ⟨code, s.faultInfo⟩

/-- The invariant of the block, its memory and its parameters. -/
structure State.Consistent (s : State) : Prop where
  /-- The memory list has its canonical form. -/
  memory     : Memory.wf s.mem = true
  /-- `K` is a legal parameter (R3). -/
  registers  : 1 ≤ s.k ∧ s.k ≤ Config.maxK
  /-- The hard-wired register 0 has no storage (R13). -/
  hardwired  : s.params.r0Hardwired = true → s.x.getD 0 .unwritten = .unwritten
  /-- The block is FAULTED exactly when a fault is recorded (R110, R111). -/
  stopped    : s.runState = .faulted ↔ s.faultCode ≠ .none
  /-- The fault record is right (R17). -/
  explained  : s.faultExplained

/-- The inputs the step after this one samples. -/
def State.nextInputs (s : State) : Inputs := s.advance.inputs

/-- `n` steps of the machine, stopping where a step gives no next state. -/
def runSteps : Nat → State → Host.Outcome State Fault Refusal
  | 0, s => .next s
  | n + 1, s =>
    match step s with
    | .next t    => runSteps n t
    | .fault r   => .fault r
    | .refused r => .refused r

/-- The sequencer presents these uops, one per step from now on, and the host requests nothing. -/
def State.feed (s : State) (uops : List Word) : State :=
  let presented := uops.map fun u => Inputs.mk u false false false false
  { s with inputs := presented.headD .idle, later := presented.tail }

/-- What the sequence of micro-operations leaves when the sequencer presents them one per step. -/
def performAll (is : List Instr) (s : State) : Host.Outcome State Fault Refusal :=
  runSteps is.length (s.feed (is.map encode))

/-- No reset is asserted in this step or in the `n` steps after it. -/
def State.noResetFor (s : State) (n : Nat) : Prop :=
  s.inputs.reset = false ∧ ∀ i ∈ s.later.take n, i.reset = false

/-- The sequencer's duty (R91): it presents the same uop again until a step performs it. -/
def sequencerHolds (s : State) : Bool := s.performsUop || s.nextInputs.uop == s.inputs.uop

/-- The host's duty (R95, R96): it holds a request until the run state shows it taken; `t` is the next state. -/
def hostHolds (s t : State) : Bool :=
  (!s.inputs.stopReq || t.runState == .stopped || t.inputs.stopReq) &&
  (!s.inputs.pauseReq || t.runState == .paused || t.inputs.pauseReq)

/-- Two states with the same memory contents, read as the aligned Words that R28 makes of them, each in its own
byte order. -/
def sameWords (s t : State) : Prop :=
  ∀ a : Word, aligned a = true →
    Memory.readWord s.params.endian s.mem a.toNat = Memory.readWord t.params.endian t.mem a.toNat

/-- Two states that agree in everything but the byte order and the bytes it lays Words out in (R31). -/
def sameButByteOrder (s t : State) : Prop :=
  sameWords s t ∧
  t = { s with mem := t.mem, params := { s.params with endian := t.params.endian } }

end Sys2Proof.Machine
end

