-- ==== Sys2Proof/Certificates/Slice0/Obligations.lean ====
section
/-! DEFINITION. The statements for the provers, from the numbered rules of spec/. A next state is written out as the
state before with the fields that change, so an equation says the whole frame: every field it does not name, the
memory and the other registers among them, is as before. -/

open Sys2Proof Sys2Proof.Machine

/-! ### Encoding (30_encoding.md) -/

/-- Decoding the uop of a well-formed micro-operation gives it back, with every operand (R42 to R46). -/
def Obligations.DecodeOfEncode : Prop :=
  ∀ i : Instr, i.wellFormed = true → decode (encode i) = .ok i

/-- A uop that decodes is the encoding of the micro-operation it decodes to, which is well formed (R48). -/
def Obligations.EncodeOfDecode : Prop :=
  ∀ (w : Word) (i : Instr), decode w = .ok i → i.wellFormed = true ∧ encode i = w

/-- A uop selects a micro-operation exactly when its masked bits are the match of R43. -/
def Obligations.UopSelectsItsMaskedRow : Prop :=
  ∀ (w : Word) (i : Instr),
    (∃ j, decode w = .ok j ∧ j.opcode = i.opcode) ↔ w &&& i.mask = i.pattern

/-- The uops that R47 lists, and no others, raise IllegalMicroOp with the uop as the information and change nothing
else (R47, R102). -/
def Obligations.IllegalUopsRaiseIllegalMicroOp : Prop :=
  (∀ s : State, s.inputs.reset = false → s.runState = .running → illegalUop s.inputs.uop = true →
    blockStep s = .next { s with
      faultCode := .illegalMicroOp, faultUop := s.inputs.uop, faultInfo := s.inputs.uop, runState := .faulted }) ∧
  (∀ w : Word, illegalUop w = false ↔ ∃ i, decode w = .ok i)

/-- A few uops of 95_test_vectors.md decode to what they are written as. -/
def Obligations.SpecWordsDecode : Prop :=
  decode 0x04000000#32 = .ok .sendAlu ∧ decode 0x281F0000#32 = .ok (.regRead 31) ∧
  decode 0x2C200000#32 = .ok (.regWrite 32) ∧ decode 0x3000FFE1#32 = .ok (.seti 0xFFE1#16) ∧
  decode 0x34001001#32 = .ok (.sethi 0x1001#16) ∧ decode 0x50000000#32 = .ok .aluShift ∧
  decode 0x64000000#32 = .ok .pcAddOffset ∧ decode 0x84000000#32 = .ok .lsuStore ∧
  decode 0xF8000000#32 = .ok .boundary ∧ decode 0xFC000001#32 = .error .nonzeroUnusedField ∧
  decode 0x36000000#32 = .error .nonzeroZ ∧ decode 0x00000000#32 = .error .unassignedOp

/-- A written line assembles to the micro-operation it was written from (R49; the spelling of `lineText` is the
model's choice, log 14). -/
def Obligations.AssembleOfLineText : Prop :=
  ∀ i : Instr, i.wellFormed = true → assembleLine (lineText i) = some [i]

/-! ### One step (44_sequencing.md) -/

/-- A RUNNING step performs the decoded uop: it is exec of it, after which the inputs of the step are used up (the
schedule of inputs is the model's, log 1 and log 2). -/
def Obligations.StepPerformsDecodedUop : Prop :=
  ∀ (s t : State) (i : Instr), s.inputs.reset = false → s.runState = .running → decode s.inputs.uop = .ok i →
    exec i s = .next t → step s = .next { t with inputs := t.later.headD .idle, later := t.later.tail }

/-- In PAUSED only `resume` changes the block, and in STOPPED, HALTED and FAULTED nothing does; the uop is not
performed (R91, R96, R118; the used-up inputs are the model's, log 1). -/
def Obligations.StepOutsideRunning : Prop :=
  ∀ s : State, s.inputs.reset = false →
    (s.runState = .paused → s.inputs.resume = true →
      step s = .next { s with runState := .running, inputs := s.later.headD .idle, later := s.later.tail }) ∧
    (s.runState = .paused → s.inputs.resume = false →
      step s = .next { s with inputs := s.later.headD .idle, later := s.later.tail }) ∧
    (s.runState = .stopped ∨ s.runState = .halted ∨ s.runState = .faulted →
      step s = .next { s with inputs := s.later.headD .idle, later := s.later.tail })

/-- Reset puts every element of R6 at its reset value, whatever the run state; memory and the parameters stay, no
micro-operation runs and nothing is notified (R119). The model's, and not R119's: the sampled inputs are used up and the
next of the schedule take their place (log 1, log 2), and that nothing is notified is read from the counter (log 13). -/
def Obligations.ResetRestoresEveryElement : Prop :=
  ∀ s : State, s.inputs.reset = true →
    ∃ t, step s = .next t ∧
      t = { bus := 0x00000000#32, alu := .unwritten, lsuAddr := .unwritten, lsuData := .unwritten
            pc := s.params.pcReset, ir := .unwritten, x := List.replicate s.k .unwritten
            faultCode := .none, faultUop := 0x00000000#32, faultInfo := 0x00000000#32
            runState := .running, notifyCount := 0, mem := s.mem
            inputs := s.later.headD .idle, later := s.later.tail, params := s.params } ∧
      (s.params.r0Hardwired = true → 0 < s.k → readReg t 0 = .ok 0x00000000#32) ∧
      notifyStrobe s t = false

/-- Every step has a next state, from every state: no micro-operation of the table, illegal uop, fault or run state
stops the machine (R91, R110; log 11). -/
def Obligations.EveryStepAnswers : Prop :=
  ∀ s : State, ∃ t, step s = .next t

/-! ### Bus transfers and registers (42_bus_and_registers.md) -/

/-- SEND_ALU, SEND_LSU, SEND_LSU_ADDR, SEND_PC and SEND_IR copy the bus to their slot and notify once; nothing else
changes (R74, R76, R77, R79, R81). -/
def Obligations.SendsWriteTheirSlot : Prop :=
  (decode 0x04000000#32 = .ok .sendAlu ∧ decode 0x0C000000#32 = .ok .sendLsu ∧
    decode 0x24000000#32 = .ok .sendLsuAddr ∧ decode 0x14000000#32 = .ok .sendPc ∧
    decode 0x1C000000#32 = .ok .sendIr) ∧
  ∀ s : State,
    exec .sendAlu s = .next { s with alu := .word s.bus, notifyCount := s.notifyCount + 1 } ∧
    exec .sendLsu s = .next { s with lsuData := .word s.bus, notifyCount := s.notifyCount + 1 } ∧
    exec .sendLsuAddr s = .next { s with lsuAddr := .word s.bus, notifyCount := s.notifyCount + 1 } ∧
    exec .sendPc s = .next { s with pc := s.bus, notifyCount := s.notifyCount + 1 } ∧
    exec .sendIr s = .next { s with ir := .word s.bus, notifyCount := s.notifyCount + 1 }

/-- RECV_ALU, RECV_LSU, RECV_PC and RECV_IR copy their slot to the bus and notify once; from an unwritten slot they
raise UnwrittenRead with the slot's number and change nothing but the fault record and the run state
(R75, R78, R80, R82). -/
def Obligations.ReceivesWriteTheBus : Prop :=
  (decode 0x08000000#32 = .ok .recvAlu ∧ decode 0x10000000#32 = .ok .recvLsu ∧
    decode 0x18000000#32 = .ok .recvPc ∧ decode 0x20000000#32 = .ok .recvIr) ∧
  ∀ (s : State) (v : Word),
    (s.alu = .word v → exec .recvAlu s = .next { s with bus := v, notifyCount := s.notifyCount + 1 }) ∧
    (s.lsuData = .word v → exec .recvLsu s = .next { s with bus := v, notifyCount := s.notifyCount + 1 }) ∧
    exec .recvPc s = .next { s with bus := s.pc, notifyCount := s.notifyCount + 1 } ∧
    (s.ir = .word v → exec .recvIr s = .next { s with bus := v, notifyCount := s.notifyCount + 1 }) ∧
    (s.alu = .unwritten → exec .recvAlu s = .next { s with
      faultCode := .unwrittenRead, faultUop := s.inputs.uop, faultInfo := 0x00000100#32, runState := .faulted }) ∧
    (s.lsuData = .unwritten → exec .recvLsu s = .next { s with
      faultCode := .unwrittenRead, faultUop := s.inputs.uop, faultInfo := 0x00000102#32, runState := .faulted }) ∧
    (s.ir = .unwritten → exec .recvIr s = .next { s with
      faultCode := .unwrittenRead, faultUop := s.inputs.uop, faultInfo := 0x00000103#32, runState := .faulted })

/-- A send followed by the receive of the same slot leaves the bus unchanged, for the ALU slot (the source's identity
round-trip, R75), the LSU data latch (R78), the pc and the ir. -/
def Obligations.SendThenReceiveKeepsTheBus : Prop :=
  ∀ s : State, ∃ a l p r,
    (exec .sendAlu s = .next a ∧ ∃ t, exec .recvAlu a = .next t ∧ t.bus = s.bus ∧ t.alu = .word s.bus) ∧
    (exec .sendLsu s = .next l ∧ ∃ t, exec .recvLsu l = .next t ∧ t.bus = s.bus ∧ t.lsuData = .word s.bus) ∧
    (exec .sendPc s = .next p ∧ ∃ t, exec .recvPc p = .next t ∧ t.bus = s.bus ∧ t.pc = s.bus) ∧
    (exec .sendIr s = .next r ∧ ∃ t, exec .recvIr r = .next t ∧ t.bus = s.bus ∧ t.ir = .word s.bus)

/-- REG_READ puts the register on the bus with two notifications; an index at or above K and an unwritten register
raise, in that order, and the hard-wired register 0 reads zero (R83, R14). -/
def Obligations.RegReadPutsRegisterOnBus : Prop :=
  (∀ r : BitVec 8, decode (0x28000000#32 ||| (r.setWidth 32 <<< 16)) = .ok (.regRead r.toNat)) ∧
  ∀ (s : State) (i : Nat),
    if s.k ≤ i then
      exec (.regRead i) s = .next { s with
        faultCode := .indexOutOfRange, faultUop := s.inputs.uop, faultInfo := BitVec.ofNat 32 i, runState := .faulted }
    else if s.params.r0Hardwired = true ∧ i = 0 then
      exec (.regRead i) s = .next { s with bus := 0x00000000#32, notifyCount := s.notifyCount + 2 }
    else
      (s.x[i]? = some .unwritten → exec (.regRead i) s = .next { s with
        faultCode := .unwrittenRead, faultUop := s.inputs.uop, faultInfo := BitVec.ofNat 32 i, runState := .faulted }) ∧
      (∀ v, s.x[i]? = some (.word v) →
        exec (.regRead i) s = .next { s with bus := v, notifyCount := s.notifyCount + 2 })

/-- REG_WRITE stores the bus in the register with one notification; a write to the hard-wired register 0 is
discarded but notifies, an index at or above K raises, and REG_READ followed by REG_WRITE of the same register leaves
it as it was (R84, R15). -/
def Obligations.RegWriteStoresTheBus : Prop :=
  (∀ r : BitVec 8, decode (0x2C000000#32 ||| (r.setWidth 32 <<< 16)) = .ok (.regWrite r.toNat)) ∧
  (∀ (s : State) (i : Nat) (v : Word), i < s.k → s.regCell i = .word v →
    ∃ t u, exec (.regRead i) s = .next t ∧ exec (.regWrite i) t = .next u ∧ u.x = s.x) ∧
  ∀ (s : State) (i : Nat),
    if s.k ≤ i then
      exec (.regWrite i) s = .next { s with
        faultCode := .indexOutOfRange, faultUop := s.inputs.uop, faultInfo := BitVec.ofNat 32 i, runState := .faulted }
    else if s.params.r0Hardwired = true ∧ i = 0 then
      exec (.regWrite i) s = .next { s with notifyCount := s.notifyCount + 1 }
    else
      ∃ x, exec (.regWrite i) s = .next { s with x := x, notifyCount := s.notifyCount + 1 } ∧
        x.length = s.k ∧ x[i]? = some (.word s.bus) ∧ ∀ j, j ≠ i → x[j]? = s.x[j]?

/-- The register write/read round-trip: what REG_WRITE stored is what a later REG_READ of the same register puts on
the bus, for every valid index that is not a hard-wired register 0, whatever steps lie between that write no register
(R15; the steps between are given as any state with the same registers and parameters). -/
def Obligations.RegisterWriteReadRoundTrip : Prop :=
  ∀ (s t m : State) (i : Nat), i < s.k → ¬(s.params.r0Hardwired = true ∧ i = 0) → exec (.regWrite i) s = .next t →
    m.x = t.x → m.params = t.params →
      ∃ u, exec (.regRead i) m = .next u ∧ u.bus = s.bus ∧ u.x = m.x ∧ u.runState = m.runState

/-- SETI puts the sign-extended immediate on the bus (R85). -/
def Obligations.SetiPutsSignExtendedConstant : Prop :=
  ∀ (s : State) (imm : BitVec 16),
    decode (0x30000000#32 ||| imm.setWidth 32) = .ok (.seti imm) ∧
    ∃ v : Word, v.toInt = imm.toInt ∧
      exec (.seti imm) s = .next { s with bus := v, notifyCount := s.notifyCount + 1 }

/-- SETHI replaces the upper half of the bus and keeps the lower half (R86), and SETI followed by SETHI puts any
32-bit constant on the bus. -/
def Obligations.SethiReplacesUpperHalf : Prop :=
  ∀ (s : State) (imm : BitVec 16),
    decode (0x34000000#32 ||| imm.setWidth 32) = .ok (.sethi imm) ∧
    (∃ v : Word, v.toNat = imm.toNat * 2 ^ 16 + s.bus.toNat % 2 ^ 16 ∧
      exec (.sethi imm) s = .next { s with bus := v, notifyCount := s.notifyCount + 1 }) ∧
    ∀ c : Word, ∃ t, exec (.seti (c.extractLsb' 0 16)) s = .next t ∧
      exec (.sethi (c.extractLsb' 16 16)) t = .next { s with bus := c, notifyCount := s.notifyCount + 2 }

/-! ### The ALU (40_alu.md) -/

/-- ALU_XOR, ALU_OR, ALU_AND and ALU_NOT, bit for bit: the result goes to the ALU slot, the bus stays, one
notification; on an unwritten slot each raises UnwrittenRead(0x00000100) (R54, R55, R58 to R62). -/
def Obligations.AluBitwiseResults : Prop :=
  (decode 0x40000000#32 = .ok .aluXor ∧ decode 0x44000000#32 = .ok .aluOr ∧
    decode 0x48000000#32 = .ok .aluAnd ∧ decode 0x4C000000#32 = .ok .aluNot) ∧
  (∀ (s : State) (i : Instr), s.alu = .unwritten → i ∈ [.aluXor, .aluOr, .aluAnd, .aluNot] → exec i s = .next { s with
      faultCode := .unwrittenRead, faultUop := s.inputs.uop, faultInfo := 0x00000100#32, runState := .faulted }) ∧
  ∀ (s : State) (a : Word), s.alu = .word a →
    ∃ x o n c : Word,
      (exec .aluXor s = .next { s with alu := .word x, notifyCount := s.notifyCount + 1 } ∧
        exec .aluOr s = .next { s with alu := .word o, notifyCount := s.notifyCount + 1 } ∧
        exec .aluAnd s = .next { s with alu := .word n, notifyCount := s.notifyCount + 1 } ∧
        exec .aluNot s = .next { s with alu := .word c, notifyCount := s.notifyCount + 1 }) ∧
      ∀ k, k < 32 →
        x.getLsbD k = (a.getLsbD k != s.bus.getLsbD k) ∧ o.getLsbD k = (a.getLsbD k || s.bus.getLsbD k) ∧
        n.getLsbD k = (a.getLsbD k && s.bus.getLsbD k) ∧ c.getLsbD k = !a.getLsbD k

/-- ALU_SHIFT, bit for bit: bit k of the result is bit k minus the signed amount of the value, and zero where that
lies outside 0 to 31. So a non-negative amount shifts left, a negative one right with zero fill, and a magnitude of
32 or more, that of 0x80000000 too, gives zero (R56, R63). -/
def Obligations.AluShiftBitByBit : Prop :=
  decode 0x50000000#32 = .ok .aluShift ∧
  (∀ s : State, s.alu = .unwritten → exec .aluShift s = .next { s with
      faultCode := .unwrittenRead, faultUop := s.inputs.uop, faultInfo := 0x00000100#32, runState := .faulted }) ∧
  ∀ (s : State) (a : Word), s.alu = .word a →
    ∃ v : Word, exec .aluShift s = .next { s with alu := .word v, notifyCount := s.notifyCount + 1 } ∧
      ∀ k : Nat, k < 32 → v.getLsbD k =
        (decide (0 ≤ (k : Int) - s.bus.toInt) && decide ((k : Int) - s.bus.toInt < 32) &&
          a.getLsbD ((k : Int) - s.bus.toInt).toNat)

/-- ALU_ADD adds modulo 2^32 in both readings of a Word, discards the carry and never raises on a written slot
(R53, R64). -/
def Obligations.AluAddWraps : Prop :=
  decode 0x54000000#32 = .ok .aluAdd ∧
  (∀ s : State, s.alu = .unwritten → exec .aluAdd s = .next { s with
      faultCode := .unwrittenRead, faultUop := s.inputs.uop, faultInfo := 0x00000100#32, runState := .faulted }) ∧
  ∀ (s : State) (a : Word), s.alu = .word a →
    ∃ v : Word, exec .aluAdd s = .next { s with alu := .word v, notifyCount := s.notifyCount + 1 } ∧
      v.toNat = (a.toNat + s.bus.toNat) % 2 ^ 32 ∧ v = BitVec.ofInt 32 (a.toInt + s.bus.toInt)

/-- The laws of the Word functions that R57 lists. -/
def Obligations.WordFunctionLaws : Prop :=
  (∀ a b, wordXor a b = wordAnd (wordOr a b) (wordNot (wordAnd a b))) ∧
  (∀ a, wordNot (wordNot a) = a) ∧
  (∀ a, wordShift a 0x00000000#32 = a) ∧
  (∀ a k : Word, 32 ≤ k.toInt ∨ k.toInt ≤ -32 → wordShift a k = 0x00000000#32) ∧
  wordShift (wordShift 0x80000001#32 0x00000001#32) 0xFFFFFFFF#32 = 0x00000001#32 ∧
  (∀ a b, wordAdd a b = wordAdd b a) ∧
  (∀ a b c, wordAdd (wordAdd a b) c = wordAdd a (wordAdd b c)) ∧
  (∀ a, wordAdd a 0x00000000#32 = a) ∧
  (∀ a, wordAdd a (wordAdd (wordNot a) 0x00000001#32) = 0x00000000#32)

/-- Subtraction by the sequence of R65: after ALU_NOT of b, ALU_ADD with 1 on the bus and ALU_ADD with a on the bus,
the ALU slot holds a - b modulo 2^32. The steps between them, which put the operands on the bus, are given as any states
with the same ALU slot. -/
def Obligations.NotAddAddSubtracts : Prop :=
  ∀ (s m n : State) (a b : Word), s.alu = .word b →
    ∃ t, exec .aluNot s = .next t ∧
      (m.alu = t.alu → m.bus = 0x00000001#32 →
        ∃ u, exec .aluAdd m = .next u ∧
          (n.alu = u.alu → n.bus = a →
            exec .aluAdd n = .next { n with alu := .word (a - b), notifyCount := n.notifyCount + 1 }))

/-! ### The program counter (41_program_counter.md) -/

/-- PC_INC adds 4 modulo 2^32 and notifies once; a misaligned pc stays misaligned (R66). -/
def Obligations.PcIncAddsFour : Prop :=
  decode 0x60000000#32 = .ok .pcInc ∧
  ∀ s : State, ∃ p : Word, exec .pcInc s = .next { s with pc := p, notifyCount := s.notifyCount + 1 } ∧
    p.toNat = (s.pc.toNat + 4) % 2 ^ 32 ∧ p.toNat % 4 = s.pc.toNat % 4

/-- PC_ADD_OFFSET adds the bus, and 4 more under OFFSET_PLUS_STEP, modulo 2^32; the bus stays (R67). -/
def Obligations.PcAddOffsetAddsTheBus : Prop :=
  decode 0x64000000#32 = .ok .pcAddOffset ∧
  ∀ s : State, ∃ p : Word, exec .pcAddOffset s = .next { s with pc := p, notifyCount := s.notifyCount + 1 } ∧
    p.toNat = (s.pc.toNat + s.bus.toNat + (if s.params.offsetPlusStep = true then 4 else 0)) % 2 ^ 32

/-- PC_TO_LSU and PC_TO_IR send the pc through the bus to the address latch and to the ir, with two notifications;
an alignment is not checked (R68, R70). -/
def Obligations.PcLinkSendsGoThroughTheBus : Prop :=
  (decode 0x68000000#32 = .ok .pcToLsu ∧ decode 0x70000000#32 = .ok .pcToIr) ∧
  ∀ s : State,
    exec .pcToLsu s = .next { s with bus := s.pc, lsuAddr := .word s.pc, notifyCount := s.notifyCount + 2 } ∧
    exec .pcToIr s = .next { s with bus := s.pc, ir := .word s.pc, notifyCount := s.notifyCount + 2 }

/-- LSU_TO_PC and IR_TO_PC load the pc, through the bus, from the data latch and from the ir, with two
notifications, and raise UnwrittenRead with no state changed when that cell is unwritten (R69, R71). -/
def Obligations.PcLinkRetrievesGoThroughTheBus : Prop :=
  (decode 0x6C000000#32 = .ok .lsuToPc ∧ decode 0x74000000#32 = .ok .irToPc) ∧
  ∀ (s : State) (v : Word),
    (s.lsuData = .word v →
      exec .lsuToPc s = .next { s with bus := v, pc := v, notifyCount := s.notifyCount + 2 }) ∧
    (s.lsuData = .unwritten → exec .lsuToPc s = .next { s with
      faultCode := .unwrittenRead, faultUop := s.inputs.uop, faultInfo := 0x00000102#32, runState := .faulted }) ∧
    (s.ir = .word v →
      exec .irToPc s = .next { s with bus := v, pc := v, notifyCount := s.notifyCount + 2 }) ∧
    (s.ir = .unwritten → exec .irToPc s = .next { s with
      faultCode := .unwrittenRead, faultUop := s.inputs.uop, faultInfo := 0x00000103#32, runState := .faulted })

/-- The pc changes only in a reset or by the micro-operations of the table of R72, to the value the table gives. -/
def Obligations.PcChangesOnlyByItsMicroOperations : Prop :=
  ∀ s t : State, step s = .next t → t.pc ≠ s.pc →
    (s.inputs.reset = true ∧ t.pc = s.params.pcReset) ∨
    (s.performsUop = true ∧
      ((decode s.inputs.uop = .ok .pcInc ∧ t.pc = s.pc + 4) ∨
       (decode s.inputs.uop = .ok .pcAddOffset ∧ t.pc = s.pc + s.bus + (if s.params.offsetPlusStep = true then 4 else 0)) ∨
       (decode s.inputs.uop = .ok .sendPc ∧ t.pc = s.bus) ∨
       (decode s.inputs.uop = .ok .lsuToPc ∧ s.lsuData = .word t.pc) ∨
       (decode s.inputs.uop = .ok .irToPc ∧ s.ir = .word t.pc)))

/-- The bus changes only in a reset or by the micro-operations that R123 lists. -/
def Obligations.BusChangesOnlyByItsMicroOperations : Prop :=
  ∀ s t : State, step s = .next t → t.bus ≠ s.bus →
    s.inputs.reset = true ∨
    (s.performsUop = true ∧ ∃ i, decode s.inputs.uop = .ok i ∧ writesBus i = true)

/-! ### Memory (20_memory.md, 43_load_store.md) -/

/-- LSU_LOAD reads the Word at the address latch into the data latch, with one notification; the checks come in the
order of R87: unwritten address, alignment, MEM_OK. -/
def Obligations.LsuLoadReadsOneWord : Prop :=
  decode 0x80000000#32 = .ok .lsuLoad ∧
  ∀ (s : State) (a : Word),
    (s.lsuAddr = .unwritten → exec .lsuLoad s = .next { s with
      faultCode := .unwrittenRead, faultUop := s.inputs.uop, faultInfo := 0x00000101#32, runState := .faulted }) ∧
    (s.lsuAddr = .word a →
      if a.toNat % 4 ≠ 0 then exec .lsuLoad s = .next { s with
        faultCode := .misaligned, faultUop := s.inputs.uop, faultInfo := a, runState := .faulted }
      else if memOk s.params a .read = false then exec .lsuLoad s = .next { s with
        faultCode := .memAccess, faultUop := s.inputs.uop, faultInfo := a, runState := .faulted }
      else exec .lsuLoad s = .next { s with
        lsuData := .word (Memory.readWord s.params.endian s.mem a.toNat), notifyCount := s.notifyCount + 1 })

/-- LSU_STORE writes the data latch to the Word at the address latch, with one notification: the four bytes from
that address on hold it in the byte order of ENDIAN, every other byte is as before, and the Word reads back. The
checks come in the order of R88. The memory has its canonical form, which every step keeps. Which byte of a Word lies
lowest in each byte order is presumed (log 9), and the canonical form of memory is the model's (log 7). -/
def Obligations.LsuStoreWritesOneWord : Prop :=
  decode 0x84000000#32 = .ok .lsuStore ∧
  ∀ (s : State) (a v : Word), Memory.wf s.mem = true →
    (s.lsuAddr = .unwritten → exec .lsuStore s = .next { s with
      faultCode := .unwrittenRead, faultUop := s.inputs.uop, faultInfo := 0x00000101#32, runState := .faulted }) ∧
    (s.lsuAddr = .word a → s.lsuData = .unwritten → exec .lsuStore s = .next { s with
      faultCode := .unwrittenRead, faultUop := s.inputs.uop, faultInfo := 0x00000102#32, runState := .faulted }) ∧
    (s.lsuAddr = .word a → s.lsuData = .word v →
      if a.toNat % 4 ≠ 0 then exec .lsuStore s = .next { s with
        faultCode := .misaligned, faultUop := s.inputs.uop, faultInfo := a, runState := .faulted }
      else if memOk s.params a .write = false then exec .lsuStore s = .next { s with
        faultCode := .memAccess, faultUop := s.inputs.uop, faultInfo := a, runState := .faulted }
      else ∃ m, exec .lsuStore s = .next { s with mem := m, notifyCount := s.notifyCount + 1 } ∧
        Memory.readWord s.params.endian m a.toNat = v ∧
        (∀ j, j < 4 → Memory.readByte m (a.toNat + j) =
          v.extractLsb' (8 * (match s.params.endian with | .little => j | .big => 3 - j)) 8) ∧
        ∀ c, c < a.toNat ∨ a.toNat + 3 < c → Memory.readByte m c = Memory.readByte s.mem c)

/-- After any step the aligned Word at an address is what the step's LSU_STORE wrote there, if it performed one to
that address without a fault, and otherwise what it was: no other event writes memory (R26, R27, R35, R36). -/
def Obligations.MemoryChangesOnlyByStore : Prop :=
  ∀ (s t : State) (a : Word), Memory.wf s.mem = true → aligned a = true → step s = .next t →
    Memory.readWord t.params.endian t.mem a.toNat =
      if s.performsUop = true ∧ decode s.inputs.uop = .ok .lsuStore ∧ expectedFault s .lsuStore = none ∧
          s.lsuAddr = .word a then
        (match s.lsuData with
          | .word v => v
          | .unwritten => 0x00000000#32)
      else Memory.readWord s.params.endian s.mem a.toNat

/-- A load from the address of the last store completes and returns the stored Word, whatever the byte order is
(R31, R36, R87). The steps between the two, none of which stores, are given as any state with the same memory and
parameters and that address in the address latch. The memory has its canonical form, which is the model's (log 7). -/
def Obligations.LoadAfterStoreReturnsTheWord : Prop :=
  ∀ (s t m : State) (a v : Word), Memory.wf s.mem = true → s.lsuAddr = .word a → s.lsuData = .word v →
    expectedFault s .lsuStore = none → exec .lsuStore s = .next t →
    m.mem = t.mem → m.params = t.params → m.lsuAddr = .word a → memOk m.params a .read = true →
      exec .lsuLoad m = .next { m with lsuData := .word v, notifyCount := m.notifyCount + 1 }

/-- The byte order cannot be observed inside the block: two states that agree but for it, hold the same Words and have
canonical memories take steps to two such states again, with canonical memories (R31; the canonical form is the
model's, log 7). -/
def Obligations.ByteOrderIsNotObservable : Prop :=
  ∀ s t : State, Memory.wf s.mem = true → Memory.wf t.mem = true → sameButByteOrder s t →
    ∃ s' t', step s = .next s' ∧ step t = .next t' ∧ sameButByteOrder s' t' ∧
      Memory.wf s'.mem = true ∧ Memory.wf t'.mem = true

/-- The fetch sequence PC_TO_LSU, LSU_LOAD, RECV_LSU, SEND_IR: from a RUNNING state it loads the ir with the Word at
the pc, with five notifications; at a misaligned pc it stops at LSU_LOAD with the ir as it was (R90). How the uops are
presented, one per step through `performAll` and `feed` with no request, and that nothing is driven after them, is the
model's choice (log 1, log 2, log 3). -/
def Obligations.FetchSequenceLoadsTheIr : Prop :=
  ∀ s : State, s.runState = .running →
    (s.pc.toNat % 4 = 0 → memOk s.params s.pc .read = true →
      ∃ w, w = Memory.readWord s.params.endian s.mem s.pc.toNat ∧
        performAll (Pseudo.expand .fetch) s = .next { s with
          lsuAddr := .word s.pc, lsuData := .word w, bus := w, ir := .word w, notifyCount := s.notifyCount + 5
          inputs := .idle, later := [] }) ∧
    (s.pc.toNat % 4 ≠ 0 →
      performAll (Pseudo.expand .fetch) s = .next { s with
        lsuAddr := .word s.pc, bus := s.pc, notifyCount := s.notifyCount + 2
        faultCode := .misaligned, faultUop := 0x80000000#32, faultInfo := s.pc, runState := .faulted
        inputs := .idle, later := [] })

/-- MOVE copies one register to another through the bus, and NEXT advances the pc by 4 and marks the boundary, which
takes no request when none is made (R50). Under R0_HARDWIRED, MOVE from register 0 copies zero and MOVE to register 0
changes no register (R14, R15). How the uops are presented, one per step through `performAll` and `feed` with no
request, and that nothing is driven after them, is the model's choice (log 1, log 2, log 3). -/
def Obligations.MoveAndNextHaveTheirEffect : Prop :=
  ∀ s : State, s.runState = .running →
    (∀ d i v, d < s.k → i < s.k → d < 256 → i < 256 →
      (if s.params.r0Hardwired = true ∧ i = 0 then v = 0x00000000#32 else s.x[i]? = some (.word v)) →
      ∃ x, performAll (Pseudo.expand (.move d i)) s = .next { s with
          x := x, bus := v, notifyCount := s.notifyCount + 3, inputs := .idle, later := [] } ∧
        (if s.params.r0Hardwired = true ∧ d = 0 then x = s.x
          else x.length = s.k ∧ x[d]? = some (.word v) ∧ ∀ j, j ≠ d → x[j]? = s.x[j]?)) ∧
    (∃ p : Word, p.toNat = (s.pc.toNat + 4) % 2 ^ 32 ∧
      performAll (Pseudo.expand .next) s = .next { s with
        pc := p, notifyCount := s.notifyCount + 1, inputs := .idle, later := [] })

/-! ### Sequencing (44_sequencing.md) -/

/-- BOUNDARY takes a stop request, else a pause request, else changes nothing; it never notifies (R93). -/
def Obligations.BoundaryTakesRequests : Prop :=
  decode 0xF8000000#32 = .ok .boundary ∧
  ∀ s : State,
    (s.inputs.stopReq = true → exec .boundary s = .next { s with runState := .stopped }) ∧
    (s.inputs.stopReq = false → s.inputs.pauseReq = true → exec .boundary s = .next { s with runState := .paused }) ∧
    (s.inputs.stopReq = false → s.inputs.pauseReq = false → exec .boundary s = .next s)

/-- HALT ends the program and changes nothing but the run state; only reset leaves HALTED (R94). -/
def Obligations.HaltEndsTheProgram : Prop :=
  decode 0xFC000000#32 = .ok .halt ∧
  (∀ s : State, exec .halt s = .next { s with runState := .halted }) ∧
  ∀ s t : State, s.runState = .halted → s.inputs.reset = false → step s = .next t → t.runState = .halted

/-- The run state changes only by the events that R18 lists: reset, BOUNDARY on a request, resume, HALT, a fault. -/
def Obligations.RunStateChangesOnlyByItsEvents : Prop :=
  ∀ s t : State, step s = .next t → t.runState ≠ s.runState →
    (s.inputs.reset = true ∧ t.runState = .running) ∨
    (s.runState = .paused ∧ s.inputs.resume = true ∧ t.runState = .running) ∨
    (s.runState = .running ∧ decode s.inputs.uop = .ok .boundary ∧
      ((s.inputs.stopReq = true ∧ t.runState = .stopped) ∨
        (s.inputs.stopReq = false ∧ s.inputs.pauseReq = true ∧ t.runState = .paused))) ∨
    (s.runState = .running ∧ decode s.inputs.uop = .ok .halt ∧ t.runState = .halted) ∨
    (s.runState = .running ∧ t.runState = .faulted ∧ t.faultCode ≠ .none)

/-- A stop request or a pause request makes no difference to a step that does not perform a BOUNDARY
(R95, R96, R125). -/
def Obligations.RequestsActOnlyAtBoundary : Prop :=
  ∀ (s : State) (stop pause : Bool),
    ¬(s.performsUop = true ∧ decode s.inputs.uop = .ok .boundary) →
      step { s with inputs := { s.inputs with stopReq := stop, pauseReq := pause } } = step s

/-- A micro-operation that completes emits the notifications of the table of R98, and one that faults emits none. -/
def Obligations.NotificationsAreAsTabled : Prop :=
  ∀ (s : State) (i : Instr), ∃ t, exec i s = .next t ∧
    t.notifyCount = s.notifyCount + (if expectedFault s i = none then notifications i else 0)

/-- The notify output is high exactly in the steps that perform a notification (R21, R97; read from the counter,
log 13). -/
def Obligations.NotifyStrobeIsHighWhenNotified : Prop :=
  ∀ s t : State, step s = .next t →
    (notifyStrobe s t = true ↔
      s.performsUop = true ∧ ∃ i, decode s.inputs.uop = .ok i ∧ expectedFault s i = none ∧ 0 < notifications i)

/-! ### Faults (60_exceptions.md) -/

/-- A micro-operation raises exactly the fault that the tables and the priority of R101 to R109 give, and then
changes nothing but the fault record and the run state (R109, R110); otherwise it leaves the fault record alone. -/
def Obligations.ExecRaisesExactlyTheTabledFault : Prop :=
  ∀ (s : State) (i : Instr),
    match expectedFault s i with
    | some f => exec i s = .next { s with
        faultCode := f.code, faultUop := s.inputs.uop, faultInfo := f.info, runState := .faulted }
    | none => ∃ t, exec i s = .next t ∧
        t.faultCode = s.faultCode ∧ t.faultUop = s.faultUop ∧ t.faultInfo = s.faultInfo ∧
        (t.runState = .faulted → s.runState = .faulted)

/-- From FAULTED, however many steps without reset are taken, the whole block and the memory stay as they are: no
second fault is raised and the record keeps the first one (R91, R111). The same holds of STOPPED and HALTED
(R100). The schedule of inputs that the steps use up is the model's (log 1, log 2). -/
def Obligations.EndedBlockStaysUntilReset : Prop :=
  ∀ (n : Nat) (s t : State), s.ended = true → s.noResetFor n → runSteps (n + 1) s = .next t →
    t = { s with inputs := t.inputs, later := t.later }

/-- Only a fault and reset write the fault record (R17). -/
def Obligations.FaultRecordWrittenOnlyByFaults : Prop :=
  ∀ s t : State, step s = .next t →
    (t.faultCode ≠ s.faultCode ∨ t.faultUop ≠ s.faultUop ∨ t.faultInfo ≠ s.faultInfo) →
      s.inputs.reset = true ∨ (s.runState = .running ∧ t.runState = .faulted ∧ t.faultUop = s.inputs.uop)

/-! ### Invariants, parameters and ports -/

/-- Every step keeps the invariant: the memory's canonical form, a legal K, no storage in a hard-wired register 0,
FAULTED exactly with a recorded fault, and a fault record that says why the block stopped (R13, R17, R18, R101 to
R111). -/
def Obligations.EveryStepKeepsConsistency : Prop :=
  ∀ s t : State, s.Consistent → step s = .next t → t.Consistent

/-- The block right after reset is consistent under every parameter set, every legal K and every memory in its
canonical form, and so is `State.reset` (whose parameters and memory are the model's choice, log 5 and log 7). -/
def Obligations.LaunchIsConsistent : Prop :=
  (∀ (p : Params) (k : Nat) (m : Memory), 1 ≤ k → k ≤ Config.maxK → Memory.wf m = true →
    (State.launch p k m).Consistent) ∧ State.reset.Consistent

/-- No step changes the parameters or the number of registers: they are fixed for a whole run (R22). -/
def Obligations.ParametersAreFixed : Prop :=
  ∀ s t : State, step s = .next t → t.params = s.params ∧ t.k = s.k

/-- Every predicate on aligned addresses and access kinds is the MEM_OK of some list of rejected accesses, so a
statement about every state covers every MEM_OK (R3; the list is the model's form, log 6). -/
def Obligations.EveryMemOkIsRepresented : Prop :=
  ∀ ok : Word → Access → Bool, ∃ l : List Rejected,
    ∀ (p : Params) (a : Word) (k : Access), memOk { p with memRejects := l } a k = ok a k

/-- Every map from aligned addresses to Words is the contents of some canonical memory in each byte order, so a
statement about every consistent state covers every MEM_INIT (R3, R28; the list is the model's form, log 7). -/
def Obligations.EveryMemInitIsRepresented : Prop :=
  ∀ (e : Endian) (init : Word → Word), ∃ m : Memory, Memory.wf m = true ∧
    ∀ a : Word, aligned a = true → Memory.readWord e m a.toNat = init a

/-- Every element has its port, an unwritten cell shows as unwritten, the fault code shows as its number, and ir_out
shows the ir (R21, R101). That the port of a hard-wired register 0 shows the zero it reads as is the model's reading
(log 8). -/
def Obligations.PortsShowTheElements : Prop :=
  ∀ s : State,
    s.port .bus = some (.word s.bus) ∧ s.port .pc = some (.word s.pc) ∧ s.port .irOut = s.port .ir ∧
    (∀ v, (s.alu = .word v → s.port .alu = some (.word v)) ∧ (s.lsuAddr = .word v → s.port .lsuAddr = some (.word v)) ∧
      (s.lsuData = .word v → s.port .lsuData = some (.word v)) ∧ (s.ir = .word v → s.port .ir = some (.word v))) ∧
    (s.alu = .unwritten → s.port .alu = some .unwritten) ∧ (s.lsuAddr = .unwritten → s.port .lsuAddr = some .unwritten) ∧
    (s.lsuData = .unwritten → s.port .lsuData = some .unwritten) ∧ (s.ir = .unwritten → s.port .ir = some .unwritten) ∧
    (∀ i, i < s.k → ¬(s.params.r0Hardwired = true ∧ i = 0) →
      (s.x[i]? = some .unwritten → s.port (.x i) = some .unwritten) ∧
      (∀ v, s.x[i]? = some (.word v) → s.port (.x i) = some (.word v))) ∧
    (s.params.r0Hardwired = true → 0 < s.k → s.port (.x 0) = some (.word 0x00000000#32)) ∧
    (∀ c n, (c, n) ∈ [(FaultCode.none, 0#3), (.illegalMicroOp, 1#3), (.indexOutOfRange, 2#3), (.unwrittenRead, 3#3),
        (.misaligned, 4#3), (.memAccess, 5#3), (.lengthMismatch, 6#3), (.formatError, 7#3)] →
      s.faultCode = c → s.port .faultCode = some (.code n)) ∧
    s.port .faultUop = some (.word s.faultUop) ∧ s.port .faultInfo = some (.word s.faultInfo) ∧
    s.port .runState = some (.run s.runState) ∧ s.port .notifyCount = some (.count s.notifyCount)
end

