-- ==== Sys2Proof/Laws/State.lean ====
section
/-! SUPPORT. The fields of a state after each shared update of Machine/Ops.lean, so that no proof unfolds one. -/

namespace Sys2Proof.Machine

variable (s : State)

/-! ### notify -/

@[simp] theorem State.notify_bus : (s.notify).bus = s.bus := rfl
@[simp] theorem State.notify_alu : (s.notify).alu = s.alu := rfl
@[simp] theorem State.notify_lsuAddr : (s.notify).lsuAddr = s.lsuAddr := rfl
@[simp] theorem State.notify_lsuData : (s.notify).lsuData = s.lsuData := rfl
@[simp] theorem State.notify_pc : (s.notify).pc = s.pc := rfl
@[simp] theorem State.notify_ir : (s.notify).ir = s.ir := rfl
@[simp] theorem State.notify_x : (s.notify).x = s.x := rfl
@[simp] theorem State.notify_faultCode : (s.notify).faultCode = s.faultCode := rfl
@[simp] theorem State.notify_faultUop : (s.notify).faultUop = s.faultUop := rfl
@[simp] theorem State.notify_faultInfo : (s.notify).faultInfo = s.faultInfo := rfl
@[simp] theorem State.notify_runState : (s.notify).runState = s.runState := rfl
@[simp] theorem State.notify_notifyCount : (s.notify).notifyCount = s.notifyCount + 1 := rfl
@[simp] theorem State.notify_mem : (s.notify).mem = s.mem := rfl
@[simp] theorem State.notify_inputs : (s.notify).inputs = s.inputs := rfl
@[simp] theorem State.notify_later : (s.notify).later = s.later := rfl
@[simp] theorem State.notify_params : (s.notify).params = s.params := rfl
@[simp] theorem State.notify_k : (s.notify).k = s.k := rfl

/-! ### faultEntry -/

@[simp] theorem State.faultEntry_bus (code : FaultCode) (info : Word) : (s.faultEntry code info).bus = s.bus := rfl
@[simp] theorem State.faultEntry_alu (code : FaultCode) (info : Word) : (s.faultEntry code info).alu = s.alu := rfl
@[simp] theorem State.faultEntry_lsuAddr (code : FaultCode) (info : Word) : (s.faultEntry code info).lsuAddr = s.lsuAddr := rfl
@[simp] theorem State.faultEntry_lsuData (code : FaultCode) (info : Word) : (s.faultEntry code info).lsuData = s.lsuData := rfl
@[simp] theorem State.faultEntry_pc (code : FaultCode) (info : Word) : (s.faultEntry code info).pc = s.pc := rfl
@[simp] theorem State.faultEntry_ir (code : FaultCode) (info : Word) : (s.faultEntry code info).ir = s.ir := rfl
@[simp] theorem State.faultEntry_x (code : FaultCode) (info : Word) : (s.faultEntry code info).x = s.x := rfl
@[simp] theorem State.faultEntry_faultCode (code : FaultCode) (info : Word) : (s.faultEntry code info).faultCode = code := rfl
@[simp] theorem State.faultEntry_faultUop (code : FaultCode) (info : Word) : (s.faultEntry code info).faultUop = s.inputs.uop := rfl
@[simp] theorem State.faultEntry_faultInfo (code : FaultCode) (info : Word) : (s.faultEntry code info).faultInfo = info := rfl
@[simp] theorem State.faultEntry_runState (code : FaultCode) (info : Word) : (s.faultEntry code info).runState = .faulted := rfl
@[simp] theorem State.faultEntry_notifyCount (code : FaultCode) (info : Word) : (s.faultEntry code info).notifyCount = s.notifyCount := rfl
@[simp] theorem State.faultEntry_mem (code : FaultCode) (info : Word) : (s.faultEntry code info).mem = s.mem := rfl
@[simp] theorem State.faultEntry_inputs (code : FaultCode) (info : Word) : (s.faultEntry code info).inputs = s.inputs := rfl
@[simp] theorem State.faultEntry_later (code : FaultCode) (info : Word) : (s.faultEntry code info).later = s.later := rfl
@[simp] theorem State.faultEntry_params (code : FaultCode) (info : Word) : (s.faultEntry code info).params = s.params := rfl
@[simp] theorem State.faultEntry_k (code : FaultCode) (info : Word) : (s.faultEntry code info).k = s.k := rfl

/-! ### resetBlock -/

@[simp] theorem State.resetBlock_bus : (s.resetBlock).bus = 0x00000000#32 := rfl
@[simp] theorem State.resetBlock_alu : (s.resetBlock).alu = .unwritten := rfl
@[simp] theorem State.resetBlock_lsuAddr : (s.resetBlock).lsuAddr = .unwritten := rfl
@[simp] theorem State.resetBlock_lsuData : (s.resetBlock).lsuData = .unwritten := rfl
@[simp] theorem State.resetBlock_pc : (s.resetBlock).pc = s.params.pcReset := rfl
@[simp] theorem State.resetBlock_ir : (s.resetBlock).ir = .unwritten := rfl
@[simp] theorem State.resetBlock_x : (s.resetBlock).x = List.replicate s.k .unwritten := rfl
@[simp] theorem State.resetBlock_faultCode : (s.resetBlock).faultCode = .none := rfl
@[simp] theorem State.resetBlock_faultUop : (s.resetBlock).faultUop = 0x00000000#32 := rfl
@[simp] theorem State.resetBlock_faultInfo : (s.resetBlock).faultInfo = 0x00000000#32 := rfl
@[simp] theorem State.resetBlock_runState : (s.resetBlock).runState = .running := rfl
@[simp] theorem State.resetBlock_notifyCount : (s.resetBlock).notifyCount = 0 := rfl
@[simp] theorem State.resetBlock_mem : (s.resetBlock).mem = s.mem := rfl
@[simp] theorem State.resetBlock_inputs : (s.resetBlock).inputs = s.inputs := rfl
@[simp] theorem State.resetBlock_later : (s.resetBlock).later = s.later := rfl
@[simp] theorem State.resetBlock_params : (s.resetBlock).params = s.params := rfl

@[simp] theorem State.resetBlock_k : (s.resetBlock).k = s.k := by simp [State.k]

/-! ### presentUop -/

@[simp] theorem State.presentUop_bus (uop : Word) : (s.presentUop uop).bus = s.bus := rfl
@[simp] theorem State.presentUop_alu (uop : Word) : (s.presentUop uop).alu = s.alu := rfl
@[simp] theorem State.presentUop_lsuAddr (uop : Word) : (s.presentUop uop).lsuAddr = s.lsuAddr := rfl
@[simp] theorem State.presentUop_lsuData (uop : Word) : (s.presentUop uop).lsuData = s.lsuData := rfl
@[simp] theorem State.presentUop_pc (uop : Word) : (s.presentUop uop).pc = s.pc := rfl
@[simp] theorem State.presentUop_ir (uop : Word) : (s.presentUop uop).ir = s.ir := rfl
@[simp] theorem State.presentUop_x (uop : Word) : (s.presentUop uop).x = s.x := rfl
@[simp] theorem State.presentUop_faultCode (uop : Word) : (s.presentUop uop).faultCode = s.faultCode := rfl
@[simp] theorem State.presentUop_faultUop (uop : Word) : (s.presentUop uop).faultUop = s.faultUop := rfl
@[simp] theorem State.presentUop_faultInfo (uop : Word) : (s.presentUop uop).faultInfo = s.faultInfo := rfl
@[simp] theorem State.presentUop_runState (uop : Word) : (s.presentUop uop).runState = .running := rfl
@[simp] theorem State.presentUop_notifyCount (uop : Word) : (s.presentUop uop).notifyCount = s.notifyCount := rfl
@[simp] theorem State.presentUop_mem (uop : Word) : (s.presentUop uop).mem = s.mem := rfl
@[simp] theorem State.presentUop_inputs (uop : Word) : (s.presentUop uop).inputs = { s.inputs with uop := uop, reset := false } := rfl
@[simp] theorem State.presentUop_later (uop : Word) : (s.presentUop uop).later = s.later := rfl
@[simp] theorem State.presentUop_params (uop : Word) : (s.presentUop uop).params = s.params := rfl
@[simp] theorem State.presentUop_k (uop : Word) : (s.presentUop uop).k = s.k := rfl

/-! ### advance -/

@[simp] theorem State.advance_bus : (s.advance).bus = s.bus := rfl
@[simp] theorem State.advance_alu : (s.advance).alu = s.alu := rfl
@[simp] theorem State.advance_lsuAddr : (s.advance).lsuAddr = s.lsuAddr := rfl
@[simp] theorem State.advance_lsuData : (s.advance).lsuData = s.lsuData := rfl
@[simp] theorem State.advance_pc : (s.advance).pc = s.pc := rfl
@[simp] theorem State.advance_ir : (s.advance).ir = s.ir := rfl
@[simp] theorem State.advance_x : (s.advance).x = s.x := rfl
@[simp] theorem State.advance_faultCode : (s.advance).faultCode = s.faultCode := rfl
@[simp] theorem State.advance_faultUop : (s.advance).faultUop = s.faultUop := rfl
@[simp] theorem State.advance_faultInfo : (s.advance).faultInfo = s.faultInfo := rfl
@[simp] theorem State.advance_runState : (s.advance).runState = s.runState := rfl
@[simp] theorem State.advance_notifyCount : (s.advance).notifyCount = s.notifyCount := rfl
@[simp] theorem State.advance_mem : (s.advance).mem = s.mem := rfl
@[simp] theorem State.advance_inputs : (s.advance).inputs = s.later.headD .idle := rfl
@[simp] theorem State.advance_later : (s.advance).later = s.later.tail := rfl
@[simp] theorem State.advance_params : (s.advance).params = s.params := rfl
@[simp] theorem State.advance_k : (s.advance).k = s.k := rfl

/-! ### pausedStep, and the lookup of registers -/

theorem State.pausedStep_resumed (h : s.inputs.resume = true) : s.pausedStep = { s with runState := .running } := by
  simp [State.pausedStep, h]

theorem State.pausedStep_held (h : s.inputs.resume = false) : s.pausedStep = s := by
  simp [State.pausedStep, h]

theorem State.k_def : s.k = s.x.length := rfl
@[simp] theorem State.presentedUop_def : s.presentedUop = s.inputs.uop := rfl

/-! ### the state after reset -/

theorem State.resetBlock_eq_launch :
    s.resetBlock = { State.launch s.params s.k s.mem with inputs := s.inputs, later := s.later } := rfl

end Sys2Proof.Machine
end

