-- ==== Sys2Proof/Laws/Ops.lean ====
section
/-! SUPPORT. What each shared operation can do, said once: performing a rule, the value of a cell, registers, the
memory port, and the inputs of a step. -/

namespace Sys2Proof.Machine

/-! ### performing a rule -/

@[simp] theorem perform_ok (s t : State) : perform s (.ok t) = .next t := rfl

@[simp] theorem perform_error (s : State) (f : Raised) : perform s (.error f) = .next (s.faultEntry f.code f.info) := rfl

/-- Performing a rule always gives a next state: the rule's own, or fault entry (R92, R110). -/
theorem perform_cases (s : State) (r : RuleResult) :
    (∃ t, r = .ok t ∧ perform s r = .next t) ∨
    (∃ f, r = .error f ∧ perform s r = .next (s.faultEntry f.code f.info)) := by
  cases r with
  | ok t => exact .inl ⟨t, rfl, rfl⟩
  | error f => exact .inr ⟨f, rfl, rfl⟩

@[simp] theorem ok_bind {α β : Type} (a : α) (f : α → Except Raised β) : ((Except.ok a : Except Raised α) >>= f) = f a := rfl

@[simp] theorem error_bind {α β : Type} (e : Raised) (f : α → Except Raised β) :
    ((Except.error e : Except Raised α) >>= f) = .error e := rfl

@[simp] theorem pure_eq_ok {α : Type} (a : α) : (pure a : Except Raised α) = .ok a := rfl

/-! ### cells and registers -/

@[simp] theorem val_word (w n : Word) : val (.word w) n = .ok w := rfl

@[simp] theorem val_unwritten (n : Word) : val .unwritten n = .error ⟨.unwrittenRead, n⟩ := rfl

theorem val_eq_ok {c : Cell} {n w : Word} : val c n = .ok w ↔ c = .word w := by
  cases c <;> simp [val]

theorem readReg_outOfRange (s : State) (i : Nat) (h : s.k ≤ i) : readReg s i = .error ⟨.indexOutOfRange, word i⟩ := by
  simp [readReg, h]

theorem readReg_inRange (s : State) (i : Nat) (h : i < s.k) : readReg s i = val (s.regCell i) (word i) := by
  simp [readReg, Nat.not_le.mpr h]

theorem writeReg_outOfRange (s : State) (i : Nat) (w : Word) (h : s.k ≤ i) :
    writeReg s i w = .error ⟨.indexOutOfRange, word i⟩ := by
  simp [writeReg, h]

/-- A register write that does not raise writes that register, or nothing at all for the hard-wired register 0. -/
theorem writeReg_cases (s : State) (i : Nat) (w : Word) (h : i < s.k) :
    (s.params.r0Hardwired = true ∧ i = 0 ∧ writeReg s i w = .ok s) ∨
    (¬(s.params.r0Hardwired = true ∧ i = 0) ∧ writeReg s i w = .ok { s with x := s.x.set i (.word w) }) := by
  by_cases hz : s.params.r0Hardwired = true ∧ i = 0
  · exact .inl ⟨hz.1, hz.2, by simp [writeReg, hz.1, hz.2, Nat.not_le.mpr (hz.2 ▸ h)]⟩
  · refine .inr ⟨hz, ?_⟩
    have : (s.params.r0Hardwired && i == 0) = false := by
      rcases hr : s.params.r0Hardwired with _ | _ <;> simp_all
    simp [writeReg, Nat.not_le.mpr h, this]

/-! ### the memory port -/

/-- Everything `MemRead` can do (R25). -/
theorem memRead_cases (s : State) (a : Word) :
    (aligned a = false ∧ memRead s a = .error ⟨.misaligned, a⟩) ∨
    (aligned a = true ∧ memOk s.params a .read = false ∧ memRead s a = .error ⟨.memAccess, a⟩) ∨
    (aligned a = true ∧ memOk s.params a .read = true ∧
      memRead s a = .ok (Memory.readWord s.params.endian s.mem a.toNat)) := by
  cases ha : aligned a <;> cases hm : memOk s.params a .read <;> simp [memRead, ha, hm]

/-- Everything `MemWrite` can do (R26). -/
theorem memWrite_cases (s : State) (a v : Word) :
    (aligned a = false ∧ memWrite s a v = .error ⟨.misaligned, a⟩) ∨
    (aligned a = true ∧ memOk s.params a .write = false ∧ memWrite s a v = .error ⟨.memAccess, a⟩) ∨
    (aligned a = true ∧ memOk s.params a .write = true ∧
      memWrite s a v = .ok { s with mem := Memory.writeWord s.params.endian s.mem a.toNat v }) := by
  cases ha : aligned a <;> cases hm : memOk s.params a .write <;> simp [memWrite, ha, hm]

theorem aligned_iff_mod (a : Word) : aligned a = true ↔ a.toNat % 4 = 0 := by
  simp [aligned, ← BitVec.toNat_inj, BitVec.extractLsb'_toNat]

/-! ### one step -/

@[simp] theorem advanceOutcome_next (s : State) : advanceOutcome (.next s) = .next s.advance := rfl

theorem step_of_blockStep {s t : State} (h : blockStep s = .next t) : step s = .next t.advance := by
  simp [step, h]

theorem blockStep_reset {s : State} (h : s.inputs.reset = true) : blockStep s = .next s.resetBlock := by
  simp [blockStep, h]

theorem blockStep_running {s : State} (hr : s.inputs.reset = false) (h : s.runState = .running) :
    blockStep s = runningStep s := by
  simp [blockStep, hr, h]

theorem blockStep_paused {s : State} (hr : s.inputs.reset = false) (h : s.runState = .paused) :
    blockStep s = .next s.pausedStep := by
  simp [blockStep, hr, h]

theorem blockStep_final {s : State} (hr : s.inputs.reset = false)
    (h : s.runState = .stopped ∨ s.runState = .halted ∨ s.runState = .faulted) : blockStep s = .next s := by
  rcases h with h | h | h <;> simp [blockStep, hr, h]

end Sys2Proof.Machine
end

