-- ==== Sys2Proof/Laws/Memory.lean ====
section
/-! SUPPORT. Laws of the external memory: every operation keeps the canonical form, a byte read after a write gives the
byte written, and a write leaves every other byte alone. -/

namespace Sys2Proof.Machine

/-! ### the canonical form -/

theorem Memory.wfFrom_mono {m : Memory} {lo hi : Nat} (h : hi ≤ lo) (hw : Memory.wfFrom lo m = true) :
    Memory.wfFrom hi m = true := by
  cases m with
  | nil => rfl
  | cons e m => simp [Memory.wfFrom] at hw ⊢; exact ⟨⟨⟨by omega, hw.1.1.2⟩, hw.1.2⟩, hw.2⟩

theorem Memory.wfFrom_cons {m : Memory} {lo a : Nat} {b : Byte} (hlo : lo ≤ a) (ha : a < 2 ^ 32)
    (hw : Memory.wfFrom (a + 1) m = true) : Memory.wfFrom lo (Memory.cons a b m) = true := by
  unfold Memory.cons
  split
  · exact Memory.wfFrom_mono (by omega) hw
  · next hb => simp [Memory.wfFrom, hlo, hb, hw]; omega

theorem Memory.wfFrom_writeByte {m : Memory} {lo a : Nat} {b : Byte} (hlo : lo ≤ a) (ha : a < 2 ^ 32)
    (hw : Memory.wfFrom lo m = true) : Memory.wfFrom lo (Memory.writeByte m a b) = true := by
  induction m generalizing lo with
  | nil => exact Memory.wfFrom_cons hlo ha rfl
  | cons e m ih =>
    obtain ⟨k, v⟩ := e
    have hw' := hw
    simp only [Memory.wfFrom, Bool.and_eq_true, decide_eq_true_eq] at hw'
    obtain ⟨⟨⟨h1, h2⟩, h3⟩, h4⟩ := hw'
    unfold Memory.writeByte
    split
    · refine Memory.wfFrom_cons hlo ha ?_
      simp only [Memory.wfFrom, Bool.and_eq_true, decide_eq_true_eq]
      exact ⟨⟨⟨by omega, h2⟩, h3⟩, h4⟩
    · split
      · next h => subst h; exact Memory.wfFrom_cons hlo ha h4
      · simp only [Memory.wfFrom, Bool.and_eq_true, decide_eq_true_eq]
        exact ⟨⟨⟨h1, h2⟩, h3⟩, ih (by omega) h4⟩

/-- Writing a byte inside the space keeps the canonical form. -/
theorem Memory.wf_writeByte {m : Memory} {a : Nat} {b : Byte} (ha : a < 2 ^ 32) (hw : Memory.wf m = true) :
    Memory.wf (Memory.writeByte m a b) = true :=
  Memory.wfFrom_writeByte (Nat.zero_le a) ha hw

/-- Writing a Word inside the space keeps the canonical form. -/
theorem Memory.wf_writeWord {e : Endian} {m : Memory} {a : Nat} {w : Word} (ha : a + 3 < 2 ^ 32)
    (hw : Memory.wf m = true) : Memory.wf (Memory.writeWord e m a w) = true :=
  Memory.wf_writeByte (by omega) (Memory.wf_writeByte (by omega) (Memory.wf_writeByte (by omega)
    (Memory.wf_writeByte (by omega) hw)))

/-- The last byte of an aligned Word lies inside the space (R28). -/
theorem aligned_last_byte {a : Word} (h : aligned a = true) : a.toNat + 3 < 2 ^ 32 := by
  have := (aligned_iff_mod a).mp h
  have := a.isLt
  omega

/-- `MemWrite` keeps the canonical form. -/
theorem memWrite_wf {s t : State} {a v : Word} (h : memWrite s a v = .ok t) (hw : Memory.wf s.mem = true) :
    Memory.wf t.mem = true := by
  obtain ⟨_, h'⟩ | ⟨_, _, h'⟩ | ⟨ha, _, h'⟩ := memWrite_cases s a v <;> rw [h'] at h <;> cases h
  exact Memory.wf_writeWord (aligned_last_byte ha) hw

/-- The memory right after reset has the canonical form. -/
theorem reset_memory_wf : Memory.wf State.reset.mem = true := rfl

/-! ### one byte -/

theorem Memory.readByte_below {m : Memory} {lo a : Nat} (h : a < lo) (hw : Memory.wfFrom lo m = true) :
    Memory.readByte m a = Config.unlistedByte := by
  induction m generalizing lo with
  | nil => rfl
  | cons e m ih =>
    obtain ⟨k, v⟩ := e
    simp only [Memory.wfFrom, Bool.and_eq_true, decide_eq_true_eq] at hw
    obtain ⟨⟨⟨h1, h2⟩, h3⟩, h4⟩ := hw
    have hk : a ≠ k := by omega
    simpa [Memory.readByte, hk] using ih (lo := k + 1) (by omega) h4

theorem Memory.readByte_cons_self {m : Memory} {a : Nat} {b : Byte} (hw : Memory.wfFrom (a + 1) m = true) :
    Memory.readByte (Memory.cons a b m) a = b := by
  unfold Memory.cons
  split
  · next h => rw [h]; exact Memory.readByte_below (Nat.lt_succ_self a) hw
  · simp [Memory.readByte]

theorem Memory.readByte_cons_ne {m : Memory} {a c : Nat} {b : Byte} (h : c ≠ a) :
    Memory.readByte (Memory.cons a b m) c = Memory.readByte m c := by
  unfold Memory.cons
  split
  · rfl
  · simp [Memory.readByte, h]

theorem Memory.readByte_writeByte_self_from {m : Memory} {lo a : Nat} {b : Byte} (hlo : lo ≤ a)
    (hw : Memory.wfFrom lo m = true) : Memory.readByte (Memory.writeByte m a b) a = b := by
  induction m generalizing lo with
  | nil => exact Memory.readByte_cons_self rfl
  | cons e m ih =>
    obtain ⟨k, v⟩ := e
    have hw' := hw
    simp only [Memory.wfFrom, Bool.and_eq_true, decide_eq_true_eq] at hw'
    obtain ⟨⟨⟨h1, h2⟩, h3⟩, h4⟩ := hw'
    unfold Memory.writeByte
    split
    · refine Memory.readByte_cons_self ?_
      simp only [Memory.wfFrom, Bool.and_eq_true, decide_eq_true_eq]
      exact ⟨⟨⟨by omega, h2⟩, h3⟩, h4⟩
    · split
      · next h => subst h; exact Memory.readByte_cons_self h4
      · next h1 h2 =>
        simpa [Memory.readByte, h2] using ih (lo := k + 1) (by omega) h4

/-- A byte read after a write to the same address gives the byte written. -/
theorem Memory.readByte_writeByte_self {m : Memory} {a : Nat} {b : Byte} (hw : Memory.wf m = true) :
    Memory.readByte (Memory.writeByte m a b) a = b :=
  Memory.readByte_writeByte_self_from (Nat.zero_le a) hw

/-- A write leaves every other byte alone; this needs no canonical form. -/
theorem Memory.readByte_writeByte_ne (m : Memory) {a c : Nat} (b : Byte) (h : c ≠ a) :
    Memory.readByte (Memory.writeByte m a b) c = Memory.readByte m c := by
  induction m with
  | nil => exact Memory.readByte_cons_ne h
  | cons e m ih =>
    obtain ⟨k, v⟩ := e
    unfold Memory.writeByte
    split
    · exact Memory.readByte_cons_ne h
    · split
      · next hk => subst hk; rw [Memory.readByte_cons_ne h]; simp [Memory.readByte, h]
      · by_cases hc : c = k
        · simp [Memory.readByte, hc]
        · simp [Memory.readByte, hc, ih]

/-! ### one Word -/

/-- The four bytes of a Word after it was written, and every other byte (R31, R35). -/
theorem Memory.readByte_writeWord {e : Endian} {m : Memory} {a c : Nat} {w : Word} (ha : a + 3 < 2 ^ 32)
    (hw : Memory.wf m = true) :
    Memory.readByte (Memory.writeWord e m a w) c =
      if c = a then byteAt e w 0 else if c = a + 1 then byteAt e w 1 else if c = a + 2 then byteAt e w 2
      else if c = a + 3 then byteAt e w 3 else Memory.readByte m c := by
  have h0 : Memory.wf (Memory.writeByte m a (byteAt e w 0)) = true := Memory.wf_writeByte (by omega) hw
  have h1 := Memory.wf_writeByte (a := a + 1) (b := byteAt e w 1) (by omega) h0
  have h2 := Memory.wf_writeByte (a := a + 2) (b := byteAt e w 2) (by omega) h1
  simp only [Memory.writeWord]
  by_cases c3 : c = a + 3
  · subst c3
    rw [Memory.readByte_writeByte_self h2]
    simp
  rw [Memory.readByte_writeByte_ne _ _ c3]
  by_cases c2 : c = a + 2
  · subst c2
    rw [Memory.readByte_writeByte_self h1]
    simp
  rw [Memory.readByte_writeByte_ne _ _ c2]
  by_cases c1 : c = a + 1
  · subst c1
    rw [Memory.readByte_writeByte_self h0]
    simp
  rw [Memory.readByte_writeByte_ne _ _ c1]
  by_cases c0 : c = a
  · subst c0
    rw [Memory.readByte_writeByte_self hw]
    simp
  rw [Memory.readByte_writeByte_ne _ _ c0]
  simp [c0, c1, c2, c3]

theorem Memory.readByte_writeWord_frame {e : Endian} {m : Memory} {a c : Nat} {w : Word}
    (h : c < a ∨ a + 3 < c) : Memory.readByte (Memory.writeWord e m a w) c = Memory.readByte m c := by
  simp only [Memory.writeWord]
  rw [Memory.readByte_writeByte_ne _ _ (by omega), Memory.readByte_writeByte_ne _ _ (by omega),
    Memory.readByte_writeByte_ne _ _ (by omega), Memory.readByte_writeByte_ne _ _ (by omega)]

/-- A Word is the four bytes of itself, most significant first. -/
theorem word_of_bytes (w : Word) :
    (w.extractLsb' 24 8 ++ w.extractLsb' 16 8 ++ w.extractLsb' 8 8 ++ w.extractLsb' 0 8 : BitVec 32) = w := by
  apply BitVec.eq_of_toNat_eq
  simp only [BitVec.toNat_append, BitVec.extractLsb'_toNat]
  rw [← Nat.shiftLeft_add_eq_or_of_lt (by omega), ← Nat.shiftLeft_add_eq_or_of_lt (by omega),
    ← Nat.shiftLeft_add_eq_or_of_lt (by omega)]
  simp only [Nat.shiftLeft_eq, Nat.shiftRight_eq_div_pow]
  have := w.isLt
  omega

/-- A Word read after a write to the same address is the Word written, in either byte order (R31). -/
theorem Memory.readWord_writeWord_self {e : Endian} {m : Memory} {a : Nat} {w : Word} (ha : a + 3 < 2 ^ 32)
    (hw : Memory.wf m = true) : Memory.readWord e (Memory.writeWord e m a w) a = w := by
  unfold Memory.readWord
  cases e <;> simp only [Memory.readByte_writeWord ha hw] <;> simp [byteAt, Endian.lane] <;> exact word_of_bytes w

/-- A write leaves every Word that shares no byte with it alone (R35). -/
theorem Memory.readWord_writeWord_other {e d : Endian} {m : Memory} {a c : Nat} {w : Word}
    (h : a + 3 < c ∨ c + 3 < a) : Memory.readWord e (Memory.writeWord d m a w) c = Memory.readWord e m c := by
  unfold Memory.readWord
  cases e <;> simp only <;> (repeat rw [Memory.readByte_writeWord_frame (by omega)])

/-- Two aligned addresses are equal or their Words share no byte (R28). -/
theorem aligned_disjoint {a c : Word} (ha : aligned a = true) (hc : aligned c = true) (h : a ≠ c) :
    a.toNat + 3 < c.toNat ∨ c.toNat + 3 < a.toNat := by
  have h1 := (aligned_iff_mod a).mp ha
  have h2 := (aligned_iff_mod c).mp hc
  have h3 : a.toNat ≠ c.toNat := fun e => h (BitVec.eq_of_toNat_eq e)
  omega

end Sys2Proof.Machine
end

