-- ==== Sys2Proof/Laws/PerInstr.lean ====
section
/-! SUPPORT. Statements about every micro-operation as syntax, one lemma per constructor of Instr. -/

namespace Sys2Proof

/-- Uops are masked field by field (30_encoding.md R42). -/
theorem packFields_and (o p : BitVec 6) (z y : BitVec 2) (r q : BitVec 8) (m n : BitVec 16) :
    packFields o z r m &&& packFields p y q n = packFields (o &&& p) (z &&& y) (r &&& q) (m &&& n) := by
  have h : (o ++ z ++ r ++ m) &&& (p ++ y ++ q ++ n) = (o &&& p) ++ (z &&& y) ++ (r &&& q) ++ (m &&& n) := by
    simp only [BitVec.and_append]
  exact h

namespace Laws.EncodeMatch

/-- The uop of a micro-operation matches its own row of R43: masked, it is `op << 26`. -/
def Statement (i : Instr) : Prop := encode i &&& i.mask = i.pattern

theorem fixed (i : Instr) (h : encode i &&& 0xFFFFFFFF#32 = i.pattern) (hm : i.mask = 0xFFFFFFFF#32) : Statement i := by
  rw [Statement, hm]; exact h

/-- Format R: the index is masked out. -/
theorem formatR (op : BitVec 6) (r : BitVec 8) :
    packFields op 0 r 0 &&& 0xFF00FFFF#32 = op.setWidth 32 <<< 26 := by
  have hm : 0xFF00FFFF#32 = packFields 0x3F#6 0x3#2 0x00#8 0xFFFF#16 := rfl
  rw [hm, packFields_and]
  simp only [BitVec.and_zero]
  revert op
  decide

/-- Format I: the immediate is masked out. -/
theorem formatI (op : BitVec 6) (imm : BitVec 16) :
    packFields op 0 0 imm &&& 0xFFFF0000#32 = op.setWidth 32 <<< 26 := by
  have hm : 0xFFFF0000#32 = packFields 0x3F#6 0x3#2 0xFF#8 0x0000#16 := rfl
  rw [hm, packFields_and]
  simp only [BitVec.and_zero]
  revert op
  decide

theorem sendAlu : Statement .sendAlu := fixed .sendAlu rfl rfl
theorem recvAlu : Statement .recvAlu := fixed .recvAlu rfl rfl
theorem sendLsu : Statement .sendLsu := fixed .sendLsu rfl rfl
theorem recvLsu : Statement .recvLsu := fixed .recvLsu rfl rfl
theorem sendPc : Statement .sendPc := fixed .sendPc rfl rfl
theorem recvPc : Statement .recvPc := fixed .recvPc rfl rfl
theorem sendIr : Statement .sendIr := fixed .sendIr rfl rfl
theorem recvIr : Statement .recvIr := fixed .recvIr rfl rfl
theorem sendLsuAddr : Statement .sendLsuAddr := fixed .sendLsuAddr rfl rfl
theorem regRead (i : Nat) : Statement (.regRead i) := formatR _ (BitVec.ofNat 8 i)
theorem regWrite (i : Nat) : Statement (.regWrite i) := formatR _ (BitVec.ofNat 8 i)
theorem seti (imm : BitVec 16) : Statement (.seti imm) := formatI _ imm
theorem sethi (imm : BitVec 16) : Statement (.sethi imm) := formatI _ imm
theorem aluXor : Statement .aluXor := fixed .aluXor rfl rfl
theorem aluOr : Statement .aluOr := fixed .aluOr rfl rfl
theorem aluAnd : Statement .aluAnd := fixed .aluAnd rfl rfl
theorem aluNot : Statement .aluNot := fixed .aluNot rfl rfl
theorem aluShift : Statement .aluShift := fixed .aluShift rfl rfl
theorem aluAdd : Statement .aluAdd := fixed .aluAdd rfl rfl
theorem pcInc : Statement .pcInc := fixed .pcInc rfl rfl
theorem pcAddOffset : Statement .pcAddOffset := fixed .pcAddOffset rfl rfl
theorem pcToLsu : Statement .pcToLsu := fixed .pcToLsu rfl rfl
theorem lsuToPc : Statement .lsuToPc := fixed .lsuToPc rfl rfl
theorem pcToIr : Statement .pcToIr := fixed .pcToIr rfl rfl
theorem irToPc : Statement .irToPc := fixed .irToPc rfl rfl
theorem lsuLoad : Statement .lsuLoad := fixed .lsuLoad rfl rfl
theorem lsuStore : Statement .lsuStore := fixed .lsuStore rfl rfl
theorem boundary : Statement .boundary := fixed .boundary rfl rfl
theorem halt : Statement .halt := fixed .halt rfl rfl

end Laws.EncodeMatch

end Sys2Proof
end

