-- ==== Sys2Proof/Laws/Step.lean ====
section
/-! SUPPORT. What one step can do, said once, and runs of steps. -/

namespace Sys2Proof.Machine

theorem runningStep_illegal {s : State} {e : IllegalReason} (h : decode s.inputs.uop = .error e) :
    runningStep s = .next (s.faultEntry .illegalMicroOp s.inputs.uop) := by
  simp [runningStep, h]

theorem runningStep_exec {s : State} {i : Instr} (h : decode s.inputs.uop = .ok i) : runningStep s = exec i s := by
  simp [runningStep, h]

/-- Everything the block can do in a step (R91): reset, an illegal uop, a micro-operation, resume, or nothing. -/
theorem blockStep_cases (s : State) :
    (s.inputs.reset = true ∧ blockStep s = .next s.resetBlock) ∨
    (s.inputs.reset = false ∧ s.runState = .running ∧ (∃ e, decode s.inputs.uop = .error e) ∧
      blockStep s = .next (s.faultEntry .illegalMicroOp s.inputs.uop)) ∨
    (s.inputs.reset = false ∧ s.runState = .running ∧ ∃ i, decode s.inputs.uop = .ok i ∧ blockStep s = exec i s) ∨
    (s.inputs.reset = false ∧ s.runState = .paused ∧ s.inputs.resume = true ∧
      blockStep s = .next { s with runState := .running }) ∨
    (s.inputs.reset = false ∧ s.runState ≠ .running ∧ blockStep s = .next s) := by
  cases hr : s.inputs.reset with
  | true => exact .inl ⟨rfl, blockStep_reset hr⟩
  | false =>
    right
    cases hs : s.runState with
    | running =>
      rw [blockStep_running hr hs]
      cases hd : decode s.inputs.uop with
      | error e => exact .inl ⟨rfl, rfl, ⟨e, rfl⟩, runningStep_illegal hd⟩
      | ok i => exact .inr (.inl ⟨rfl, rfl, i, rfl, runningStep_exec hd⟩)
    | paused =>
      rw [blockStep_paused hr hs]
      cases hp : s.inputs.resume with
      | true => exact .inr (.inr (.inl ⟨rfl, rfl, rfl, by rw [State.pausedStep_resumed s hp]⟩))
      | false => exact .inr (.inr (.inr ⟨rfl, by simp, by rw [State.pausedStep_held s hp]⟩))
    | stopped => exact .inr (.inr (.inr ⟨rfl, by simp, blockStep_final hr (by simp [hs])⟩))
    | halted => exact .inr (.inr (.inr ⟨rfl, by simp, blockStep_final hr (by simp [hs])⟩))
    | faulted => exact .inr (.inr (.inr ⟨rfl, by simp, blockStep_final hr (by simp [hs])⟩))

/-! ### runs -/

@[simp] theorem runSteps_zero (s : State) : runSteps 0 s = .next s := rfl

theorem runSteps_succ {s t : State} (n : Nat) (h : step s = .next t) : runSteps (n + 1) s = runSteps n t := by
  simp [runSteps, h]

end Sys2Proof.Machine
end

