-- ==== Sys2Proof/Tests/Slice0.lean ====
section
/-! SUPPORT. Tests: well-formedness, decoding of words written out from 30_encoding.md, vectors of
95_test_vectors.md (their names stand in the theorems' comments), and a witness for the hypotheses of each statement. -/

namespace Sys2Proof.Tests

open Sys2Proof Sys2Proof.Machine

/-! ### well-formedness and decoding -/

theorem test_wellFormed_refuses_regRead_256 : Instr.wellFormed (.regRead 256) = false := by decide
theorem test_wellFormed_refuses_regWrite_256 : Instr.wellFormed (.regWrite 256) = false := by decide
theorem test_wellFormed_accepts_255 : (Instr.wellFormed (.regRead 255) && Instr.wellFormed (.regWrite 255)) = true := by decide

/-! The uop column of R46, row by row. -/
theorem test_decode_sendAlu : decode 0x04000000#32 = .ok .sendAlu := by decide
theorem test_decode_recvAlu : decode 0x08000000#32 = .ok .recvAlu := by decide
theorem test_decode_sendLsu : decode 0x0C000000#32 = .ok .sendLsu := by decide
theorem test_decode_recvLsu : decode 0x10000000#32 = .ok .recvLsu := by decide
theorem test_decode_sendPc : decode 0x14000000#32 = .ok .sendPc := by decide
theorem test_decode_recvPc : decode 0x18000000#32 = .ok .recvPc := by decide
theorem test_decode_sendIr : decode 0x1C000000#32 = .ok .sendIr := by decide
theorem test_decode_recvIr : decode 0x20000000#32 = .ok .recvIr := by decide
theorem test_decode_sendLsuAddr : decode 0x24000000#32 = .ok .sendLsuAddr := by decide
theorem test_decode_regRead : decode 0x281F0000#32 = .ok (.regRead 31) := by decide
theorem test_decode_regWrite : decode 0x2C090000#32 = .ok (.regWrite 9) := by decide
theorem test_decode_seti : decode 0x3000FFE1#32 = .ok (.seti 0xFFE1#16) := by decide
theorem test_decode_sethi : decode 0x34001001#32 = .ok (.sethi 0x1001#16) := by decide
theorem test_decode_aluXor : decode 0x40000000#32 = .ok .aluXor := by decide
theorem test_decode_aluOr : decode 0x44000000#32 = .ok .aluOr := by decide
theorem test_decode_aluAnd : decode 0x48000000#32 = .ok .aluAnd := by decide
theorem test_decode_aluNot : decode 0x4C000000#32 = .ok .aluNot := by decide
theorem test_decode_aluShift : decode 0x50000000#32 = .ok .aluShift := by decide
theorem test_decode_aluAdd : decode 0x54000000#32 = .ok .aluAdd := by decide
theorem test_decode_pcInc : decode 0x60000000#32 = .ok .pcInc := by decide
theorem test_decode_pcAddOffset : decode 0x64000000#32 = .ok .pcAddOffset := by decide
theorem test_decode_pcToLsu : decode 0x68000000#32 = .ok .pcToLsu := by decide
theorem test_decode_lsuToPc : decode 0x6C000000#32 = .ok .lsuToPc := by decide
theorem test_decode_pcToIr : decode 0x70000000#32 = .ok .pcToIr := by decide
theorem test_decode_irToPc : decode 0x74000000#32 = .ok .irToPc := by decide
theorem test_decode_lsuLoad : decode 0x80000000#32 = .ok .lsuLoad := by decide
theorem test_decode_lsuStore : decode 0x84000000#32 = .ok .lsuStore := by decide
theorem test_decode_boundary : decode 0xF8000000#32 = .ok .boundary := by decide
theorem test_decode_halt : decode 0xFC000000#32 = .ok .halt := by decide

/-- Vectors E1 to E9: unassigned opcodes. -/
theorem test_decode_unassigned : decode 0x00000000#32 = .error .unassignedOp ∧ decode 0x38000000#32 = .error .unassignedOp ∧ decode 0x3C000000#32 = .error .unassignedOp ∧
    decode 0x58000000#32 = .error .unassignedOp ∧ decode 0x5C000000#32 = .error .unassignedOp ∧ decode 0x78000000#32 = .error .unassignedOp ∧
    decode 0x7C000000#32 = .error .unassignedOp ∧ decode 0x88000000#32 = .error .unassignedOp ∧ decode 0xF4000000#32 = .error .unassignedOp := by decide
/-- Vectors E12, E13, E16: a nonzero `z` field. -/
theorem test_decode_nonzeroZ : decode 0x05000000#32 = .error .nonzeroZ ∧ decode 0x29000000#32 = .error .nonzeroZ ∧ decode 0x36000000#32 = .error .nonzeroZ := by decide
/-- Vectors E10, E11, E14, E15, E17: a nonzero field that the format does not use. -/
theorem test_decode_nonzeroUnused : decode 0x04000001#32 = .error .nonzeroUnusedField ∧ decode 0x04010000#32 = .error .nonzeroUnusedField ∧ decode 0x28050001#32 = .error .nonzeroUnusedField ∧
    decode 0x30010005#32 = .error .nonzeroUnusedField ∧ decode 0xFC000001#32 = .error .nonzeroUnusedField := by decide

/-- R49 and R50: an immediate in negative decimal, a comment, and a pseudo-operation. -/
theorem test_assemble_seti : assembleLine "SETI -8 ; minus eight".toList = some [.seti 0xFFF8#16] := by decide
theorem test_assemble_move : assembleLine "MOVE r4, r31".toList = some [.regRead 31, .regWrite 4] := by decide

/-! ### one step from a small state -/

/-- A field of the state after the step that performs `uop` in `s`. -/
def after {α : Type} (s : State) (uop : Nat) (f : State → α) : Option α :=
  match step (s.withFetchWord 32 uop) with
  | .next t => some (f t)
  | .fault _ => none
  | .refused _ => none

/-- The state of the vectors: reset, with a bus, an ALU slot and a pc. -/
def st (bus : Word) (alu : Cell) (pc : Word) : State := { State.reset with bus := bus, alu := alu, pc := pc }

/-- The fault record and the run state. -/
def record (s : State) : BitVec 3 × Word × Word × RunState :=
  (FaultCode.number s.faultCode, s.faultUop, s.faultInfo, s.runState)

/-- The reset state with the latches of the load/store unit. -/
def latched (a d : Cell) : State := { State.reset with lsuAddr := a, lsuData := d }

/-- The reset state with register 0 hard-wired. -/
def hardwired : State := { State.reset with params := { Config.defaultParams with r0Hardwired := true } }

/-- The reset state with one register written. -/
def withReg (i : Nat) (w : Word) : State := { State.reset with x := State.reset.x.set i (.word w) }

-- vector B1
theorem test_sendAlu : after (st 5 .unwritten 0) 0x04000000 (fun t => (t.alu, t.bus, t.notifyCount)) = some (.word 5, 5, 1) := by decide
-- example of R75, vector B2
theorem test_recvAlu : after (st 9 (.word 6) 0) 0x08000000 (fun t => (t.bus, t.notifyCount)) = some (6, 1) := by decide
theorem test_recvAlu_unwritten : after (st 9 .unwritten 0) 0x08000000 (fun t => (t.bus, record t)) = some (9, 3, 0x08000000, 0x100, .faulted) := by decide
-- vector B3
theorem test_sendLsu : after (st 0xCAFEF00D .unwritten 0) 0x0C000000 (fun t => (t.lsuData, t.lsuAddr)) = some (.word 0xCAFEF00D, .unwritten) := by decide
-- vectors B5, B6
theorem test_recvLsu : after (latched .unwritten (.word 0xDEADBEEF)) 0x10000000 (fun t => (t.bus, t.notifyCount)) = some (0xDEADBEEF, 1) := by decide
theorem test_recvLsu_unwritten : after State.reset 0x10000000 (fun t => (t.bus, record t)) = some (0, 3, 0x10000000, 0x102, .faulted) := by decide
-- vectors B7, B8
theorem test_sendPc : after (st 0x00400022 .unwritten 0) 0x14000000 (fun t => t.pc) = some 0x00400022 := by decide
theorem test_recvPc : after (st 1 .unwritten 0x00400004) 0x18000000 (fun t => t.bus) = some 0x00400004 := by decide
-- vectors B9, B10, B11
theorem test_sendIr : after (st 0x01095020 .unwritten 0) 0x1C000000 (fun t => (t.ir, t.port .irOut)) = some (.word 0x01095020, some (.word 0x01095020)) := by decide
theorem test_recvIr : after { State.reset with ir := .word 0x01095020 } 0x20000000 (fun t => t.bus) = some 0x01095020 := by decide
theorem test_recvIr_unwritten : after State.reset 0x20000000 record = some (3, 0x20000000, 0x103, .faulted) := by decide
-- vector B4
theorem test_sendLsuAddr : after (st 0x10010002 .unwritten 0) 0x24000000 (fun t => t.lsuAddr) = some (.word 0x10010002) := by decide
-- vectors B12, B14
theorem test_regRead : after (withReg 5 7) 0x28050000 (fun t => (t.bus, t.x[5]?, t.notifyCount)) = some (7, some (.word 7), 2) := by decide
theorem test_regRead_outOfRange : after State.reset 0x28FF0000 record = some (2, 0x28FF0000, 0xFF, .faulted) := by decide
-- vectors B18, B19
theorem test_regWrite : after (st 8 .unwritten 0) 0x2C040000 (fun t => (t.x[4]?, t.bus, t.notifyCount)) = some (some (.word 8), 8, 1) := by decide
theorem test_regWrite_hardwired : after { hardwired with bus := 8 } 0x2C000000 (fun t => (t.x[0]?, readReg t 0, t.notifyCount)) = some (some .unwritten, .ok 0, 1) := by decide
-- vectors B23, B28
theorem test_seti : after (st 0x12345678 .unwritten 0) 0x30008000 (fun t => (t.bus, t.notifyCount)) = some (0xFFFF8000, 1) := by decide
theorem test_sethi : after (st 0xFFFF8000 .unwritten 0) 0x34001001 (fun t => (t.bus, t.notifyCount)) = some (0x10018000, 1) := by decide
-- vectors A2, A5, A7, A8
theorem test_aluXor : after (st 0x0F0F0F0F (.word 0xFFFFFFFF) 0) 0x40000000 (fun t => (t.alu, t.bus)) = some (.word 0xF0F0F0F0, 0x0F0F0F0F) := by decide
theorem test_aluOr : after (st 1 (.word 0x80000000) 0) 0x44000000 (fun t => t.alu) = some (.word 0x80000001) := by decide
theorem test_aluAnd : after (st 0x00FFFF00 (.word 0xFFFF0000) 0) 0x48000000 (fun t => t.alu) = some (.word 0x00FF0000) := by decide
theorem test_aluNot : after (st 0x1234 (.word 0) 0) 0x4C000000 (fun t => (t.alu, t.bus)) = some (.word 0xFFFFFFFF, 0x1234) := by decide
-- vectors A10 to A21, the boundary amounts of ALU_SHIFT
theorem test_aluShift_left : wordShift 0x12345678 0 = 0x12345678 ∧ wordShift 1 0x1F = 0x80000000 ∧ wordShift 1 0x20 = 0 ∧
    wordShift 3 0x1E = 0xC0000000 ∧ wordShift 0xFFFFFFFF 0x7FFFFFFF = 0 := by decide
theorem test_aluShift_right : wordShift 0xFFFFFFFF 0xFFFFFFFF = 0x7FFFFFFF ∧ wordShift 0x80000000 0xFFFFFFE1 = 1 ∧
    wordShift 0x0000F000 0xFFFFFFF4 = 0x0000000F ∧ wordShift 0xFFFFFFFF 0xFFFFFFE0 = 0 ∧ wordShift 0xFFFFFFFF 0x80000000 = 0 ∧
    after (st 0xFFFFFFF4 (.word 0x0000F000) 0) 0x50000000 (fun t => (t.alu, t.bus)) = some (.word 0x0000000F, 0xFFFFFFF4) := by decide
-- vectors A23, A27
theorem test_aluAdd : after (st 1 (.word 0x7FFFFFFF) 0) 0x54000000 (fun t => (t.alu, t.runState)) = some (.word 0x80000000, .running) := by decide
theorem test_aluAdd_unwritten : after (st 7 .unwritten 0) 0x54000000 (fun t => (t.alu, t.bus, record t)) = some (.unwritten, 7, 3, 0x54000000, 0x100, .faulted) := by decide
-- vectors P2, L1-3
theorem test_pcInc : after (st 0 .unwritten 2) 0x60000000 (fun t => t.pc) = some 6 := by decide
theorem test_pcInc_wraps : after (st 0 .unwritten 0xFFFFFFFC) 0x60000000 (fun t => t.pc) = some 0 := by decide
-- vector P4, both values of OFFSET_PLUS_STEP
theorem test_pcAddOffset : after (st 0xFFFFFFF0 .unwritten 0x00400000) 0x64000000 (fun t => (t.pc, t.notifyCount)) = some (0x003FFFF4, 1) := by decide
theorem test_pcAddOffset_plain : after { st 0xFFFFFFF0 .unwritten 0x00400000 with params := { Config.defaultParams with offsetPlusStep := false } }
    0x64000000 (fun t => t.pc) = some 0x003FFFF0 := by decide
-- vectors P8, P9, P10, P11, P12
theorem test_pcToLsu : after (st 0x55 .unwritten 0x00400000) 0x68000000 (fun t => (t.lsuAddr, t.bus, t.notifyCount)) = some (.word 0x00400000, 0x00400000, 2) := by decide
theorem test_lsuToPc : after (latched .unwritten (.word 0x00400100)) 0x6C000000 (fun t => (t.pc, t.bus, t.notifyCount)) = some (0x00400100, 0x00400100, 2) := by decide
theorem test_lsuToPc_unwritten : after State.reset 0x6C000000 (fun t => (t.pc, record t)) = some (0x00400000, 3, 0x6C000000, 0x102, .faulted) := by decide
theorem test_pcToIr : after (st 0 .unwritten 0x00400008) 0x70000000 (fun t => (t.ir, t.bus)) = some (.word 0x00400008, 0x00400008) := by decide
theorem test_irToPc : after { State.reset with ir := .word 0x00400040 } 0x74000000 (fun t => (t.pc, t.bus)) = some (0x00400040, 0x00400040) := by decide
-- vectors L5 (with its MEM_OK) and L1
theorem test_lsuLoad_misaligned_first : after { latched (.word 0x20000001) .unwritten with
    params := { Config.defaultParams with memRejects := [⟨.read, 0x20000000, 0xFFFFFFFF⟩] } } 0x80000000 record = some (4, 0x80000000, 0x20000001, .faulted) := by decide
theorem test_lsuLoad : after { latched (.word 0x10010000) .unwritten with mem := [(0x10010000, 8), (0x10010003, 0x80)] } 0x80000000
    (fun t => (t.lsuData, t.notifyCount)) = some (.word 0x80000008, 1) := by decide
-- vectors L6 and L10 (with its MEM_OK)
theorem test_lsuStore : after (latched (.word 0x10010000) (.word 0x00000108)) 0x84000000 (fun t => (t.mem, t.notifyCount)) =
    some ([(0x10010000, 8), (0x10010001, 1)], 1) := by decide
theorem test_lsuStore_rejected : after { latched (.word 0x00400000) (.word 5) with
    mem := [(0x00400000, 9)], params := { Config.defaultParams with memRejects := [⟨.write, 0, 0xFFFFFFFF⟩] } } 0x84000000
    (fun t => (t.mem, record t)) = some ([(0x00400000, 9)], 5, 0x84000000, 0x00400000, .faulted) := by decide
-- vectors S4, S1
theorem test_boundary_stop_wins : after { State.reset with inputs := ⟨0, true, true, false, false⟩ } 0xF8000000 (fun t => (t.runState, t.notifyCount)) = some (.stopped, 0) := by decide
theorem test_boundary_no_request : after State.reset 0xF8000000 (fun t => t.runState) = some .running := by decide
-- vector S10
theorem test_halt : after (st 1 .unwritten 0) 0xFC000000 (fun t => (t.runState, t.bus, t.notifyCount)) = some (.halted, 1, 0) := by decide
-- vectors S11 (first step), S7 and S12
theorem test_illegal : after State.reset 0x00000000 record = some (1, 0, 0, .faulted) := by decide

/-- A field after one step with these inputs. -/
def sampled {α : Type} (s : State) (i : Inputs) (f : State → α) : Option α :=
  match step { s with inputs := i } with
  | .next t => some (f t)
  | .fault _ => none
  | .refused _ => none

theorem test_resume : sampled { st 1 .unwritten 0 with runState := .paused } ⟨0x30000005, false, false, true, false⟩
    (fun t => (t.runState, t.bus)) = some (.running, 1) := by decide
theorem test_reset : sampled { st 1 (.word 2) 0x123 with runState := .faulted, faultCode := .misaligned, notifyCount := 9, mem := [(0x100, 7)] }
    ⟨0x30000005, false, false, false, true⟩ (fun t => (t.bus, t.alu, t.pc, t.notifyCount)) = some (0, .unwritten, 0x00400000, 0) := by decide
theorem test_reset_record : sampled { State.reset with runState := .faulted, faultCode := .misaligned, faultInfo := 2, mem := [(0x100, 7)] }
    ⟨0x30000005, false, false, false, true⟩ (fun t => (record t, t.mem)) = some ((0, 0, 0, .running), [(0x100, 7)]) := by decide

/-! ### witnesses: states that meet the hypotheses of the statements -/

/-- The state after a step. -/
def stepped (s : State) : State :=
  match step s with
  | .next t => t
  | .fault _ => s
  | .refused _ => s

/-- The state after a micro-operation. -/
def execed (i : Instr) (s : State) : State :=
  match exec i s with
  | .next t => t
  | .fault _ => s
  | .refused _ => s

/-- The reset state with a uop presented. -/
def presenting (uop : Word) : State := State.reset.presentUop uop

theorem witness_DecodeOfEncode : Instr.wellFormed (.regRead 255) = true := by decide
theorem witness_EncodeOfDecode : decode 0x28FF0000#32 = .ok (.regRead 255) := by decide
theorem witness_IllegalUops : (presenting 0x88000000).inputs.reset = false ∧ (presenting 0x88000000).runState = .running ∧
    illegalUop (presenting 0x88000000).inputs.uop = true := by decide
theorem witness_IllegalUops_last_unassigned : illegalUop 0xF4000000 = true ∧ illegalUop 0xF8000000 = false ∧
    illegalUop 0x84000000 = false ∧ illegalUop 0x28FF0000 = false ∧ illegalUop 0x3000FFFF = false := by decide
theorem witness_AssembleOfLineText : Instr.wellFormed (.seti 0xFFFF#16) = true ∧ assembleLine (lineText (.seti 0xFFFF#16)) = some [.seti 0xFFFF#16] := by decide
theorem witness_StepPerformsDecodedUop : (presenting 0x30000005).inputs.reset = false ∧ (presenting 0x30000005).runState = .running ∧
    decode (presenting 0x30000005).inputs.uop = .ok (.seti 5) ∧
    exec (.seti 5) (presenting 0x30000005) = .next (execed (.seti 5) (presenting 0x30000005)) := ⟨rfl, rfl, by decide, rfl⟩
theorem witness_StepOutsideRunning_paused : ({ State.reset with runState := .paused } : State).inputs.reset = false := rfl
theorem witness_StepOutsideRunning_resumed :
    ({ State.reset with runState := .paused, inputs := ⟨0, false, false, true, false⟩ } : State).inputs.resume = true ∧
    ({ State.reset with runState := .paused, inputs := ⟨0, false, false, true, false⟩ } : State).inputs.reset = false := ⟨rfl, rfl⟩
theorem witness_StepOutsideRunning_ended : ({ State.reset with runState := .faulted } : State).ended = true := rfl
theorem witness_ResetRestores : ({ hardwired with inputs := ⟨0, false, false, false, true⟩ } : State).inputs.reset = true ∧
    hardwired.params.r0Hardwired = true ∧ 0 < hardwired.k := by decide
theorem witness_Receives : (st 9 (.word 6) 0).alu = .word 6 ∧ (latched .unwritten (.word 6)).lsuData = .word 6 ∧
    ({ State.reset with ir := .word 6 } : State).ir = .word 6 := ⟨rfl, rfl, rfl⟩
theorem witness_Receives_unwritten : State.reset.alu = .unwritten ∧ State.reset.lsuData = .unwritten ∧ State.reset.ir = .unwritten := ⟨rfl, rfl, rfl⟩
theorem witness_RegRead_outOfRange : State.reset.k ≤ 32 ∧ ¬ State.reset.k ≤ 31 := by decide
theorem witness_RegRead_hardwired : ¬ hardwired.k ≤ 0 ∧ hardwired.params.r0Hardwired = true ∧
    hardwired.x[1]? = some .unwritten := by decide
theorem witness_RegRead_written : (withReg 31 7).x[31]? = some (.word 7) ∧ (withReg 31 7).x[0]? = some .unwritten ∧
    ¬ (withReg 31 7).k ≤ 31 ∧ (withReg 31 7).params.r0Hardwired = false := by decide
theorem witness_RegWrite : ¬ State.reset.k ≤ 31 ∧ State.reset.k ≤ 32 ∧ State.reset.params.r0Hardwired = false ∧
    hardwired.params.r0Hardwired = true := by decide
theorem witness_RegWrite_afterRead : 0 < hardwired.k ∧ hardwired.regCell 0 = .word 0 ∧ 31 < (withReg 31 7).k ∧
    (withReg 31 7).regCell 31 = .word 7 := by decide
theorem witness_RegisterWriteReadRoundTrip : 31 < State.reset.k ∧ ¬(State.reset.params.r0Hardwired = true ∧ 31 = 0) ∧
    exec (.regWrite 31) State.reset = .next (execed (.regWrite 31) State.reset) ∧
    ({ execed (.regWrite 31) State.reset with bus := 1 } : State).x = (execed (.regWrite 31) State.reset).x ∧
    ({ execed (.regWrite 31) State.reset with bus := 1 } : State).params = (execed (.regWrite 31) State.reset).params :=
  ⟨by decide, by decide, rfl, rfl, rfl⟩
theorem witness_Alu : (st 0xFFFFFFE0 (.word 0xFFFFFFFF) 0).alu = .word 0xFFFFFFFF := rfl
theorem witness_Alu_unwritten : State.reset.alu = .unwritten ∧ Instr.aluNot ∈ [.aluXor, .aluOr, .aluAnd, .aluNot] := by decide
theorem witness_NotAddAdd : (st 0 (.word 3) 0).alu = .word 3 ∧ (st 1 (.word 0xFFFFFFFC) 0).alu = (execed .aluNot (st 0 (.word 3) 0)).alu ∧
    (st 5 (.word 0xFFFFFFFD) 0).alu = (execed .aluAdd (st 1 (.word 0xFFFFFFFC) 0)).alu := by decide
theorem witness_WordFunctionLaws : 32 ≤ (0x00000020#32).toInt ∧ (0xFFFFFFE0#32).toInt ≤ -32 ∧ (0x80000000#32).toInt ≤ -32 ∧
    ¬ 32 ≤ (0x0000001F#32).toInt := by decide
theorem witness_PcLinkRetrieves : (latched .unwritten (.word 0x00400100)).lsuData = .word 0x00400100 ∧ State.reset.lsuData = .unwritten ∧
    ({ State.reset with ir := .word 4 } : State).ir = .word 4 ∧ State.reset.ir = .unwritten := ⟨rfl, rfl, rfl, rfl⟩
theorem witness_PcChanges : step (presenting 0x60000000) = .next (stepped (presenting 0x60000000)) ∧
    (stepped (presenting 0x60000000)).pc ≠ (presenting 0x60000000).pc := ⟨rfl, by decide⟩
theorem witness_PcChanges_reset : (stepped { st 0 .unwritten 4 with inputs := ⟨0, false, false, false, true⟩ }).pc ≠ 4 := by decide
theorem witness_BusChanges : step (presenting 0x30000005) = .next (stepped (presenting 0x30000005)) ∧
    (stepped (presenting 0x30000005)).bus ≠ (presenting 0x30000005).bus := ⟨rfl, by decide⟩
theorem witness_LsuLoad : State.reset.lsuAddr = .unwritten ∧ (latched (.word 0x10010002) .unwritten).lsuAddr = .word 0x10010002 ∧
    (0x10010002#32).toNat % 4 ≠ 0 ∧ (0x10010000#32).toNat % 4 = 0 ∧ memOk Config.defaultParams 0x10010000 .read = true ∧
    memOk { Config.defaultParams with memRejects := [⟨.read, 0x20000000, 0xFFFFFFFF⟩] } 0x20000000 .read = false := by decide
theorem witness_LsuStore_unwritten : Memory.wf State.reset.mem = true ∧ State.reset.lsuAddr = .unwritten ∧
    (latched (.word 0) .unwritten).lsuAddr = .word 0 ∧ (latched (.word 0) .unwritten).lsuData = .unwritten ∧
    (latched (.word 3) (.word 5)).lsuAddr = .word 3 ∧ (0x00000003#32).toNat % 4 ≠ 0 := by decide
theorem witness_LsuStore : Memory.wf (latched (.word 0xFFFFFFFC) (.word 5)).mem = true ∧
    (latched (.word 0xFFFFFFFC) (.word 5)).lsuAddr = .word 0xFFFFFFFC ∧ (latched (.word 0xFFFFFFFC) (.word 5)).lsuData = .word 5 ∧
    (0xFFFFFFFC#32).toNat % 4 = 0 ∧ memOk Config.defaultParams 0xFFFFFFFC .write = true ∧
    memOk { Config.defaultParams with memRejects := [⟨.write, 0, 0⟩] } 0 .write = false ∧
    memOk { Config.defaultParams with memRejects := [⟨.write, 0, 0⟩] } 0 .read = true := by decide
theorem witness_MemoryChanges : Memory.wf ((latched (.word 0x100) (.word 5)).presentUop 0x84000000).mem = true ∧ aligned 0x100 = true ∧
    step ((latched (.word 0x100) (.word 5)).presentUop 0x84000000) = .next (stepped ((latched (.word 0x100) (.word 5)).presentUop 0x84000000)) ∧
    expectedFault ((latched (.word 0x100) (.word 5)).presentUop 0x84000000) .lsuStore = none := ⟨rfl, by decide, rfl, by decide⟩
/-- The state after a store of 0xABCD to 0x100, and after SETI 5 on it (compare vector L11). -/
def stored : State := execed .lsuStore (latched (.word 0x100) (.word 0xABCD))

theorem witness_LoadAfterStore : expectedFault (latched (.word 0x100) (.word 0xABCD)) .lsuStore = none ∧
    exec .lsuStore (latched (.word 0x100) (.word 0xABCD)) = .next stored ∧
    (execed (.seti 5) stored).mem = stored.mem ∧ (execed (.seti 5) stored).params = stored.params ∧
    (execed (.seti 5) stored).lsuAddr = .word 0x100 ∧ memOk (execed (.seti 5) stored).params 0x100 .read = true :=
  ⟨by decide, rfl, rfl, rfl, rfl, by decide⟩

/-- The reset state with one Word in memory, in the byte order `e`. -/
def holding (e : Endian) : State :=
  { State.reset with mem := Memory.writeWord e [] 0x100 0x01020304, params := { Config.defaultParams with endian := e } }

theorem witness_ByteOrder : Memory.wf (holding .little).mem = true ∧ Memory.wf (holding .big).mem = true ∧
    sameButByteOrder (holding .little) (holding .big) := by
  refine ⟨by decide, by decide, ?_, rfl⟩
  intro a ha
  change Memory.readWord .little (Memory.writeWord .little [] (0x100#32).toNat 0x01020304) a.toNat =
    Memory.readWord .big (Memory.writeWord .big [] (0x100#32).toNat 0x01020304) a.toNat
  by_cases h : (0x100#32) = a
  · subst h
    rw [Memory.readWord_writeWord_self (by decide) rfl, Memory.readWord_writeWord_self (by decide) rfl]
  · have hd := aligned_disjoint (by decide) ha h
    rw [Memory.readWord_writeWord_other hd, Memory.readWord_writeWord_other hd]
    rfl
theorem witness_ByteOrder_differs : (holding .little).mem ≠ (holding .big).mem := by decide
theorem witness_Fetch : State.reset.runState = .running ∧ State.reset.pc.toNat % 4 = 0 ∧ memOk State.reset.params State.reset.pc .read = true ∧
    (st 0 .unwritten 0x00400002).pc.toNat % 4 ≠ 0 := by decide
theorem witness_Move : (withReg 3 7).runState = .running ∧ 31 < (withReg 3 7).k ∧ 3 < (withReg 3 7).k ∧
    (if (withReg 3 7).params.r0Hardwired = true ∧ 3 = 0 then (0x00000007#32 : Word) = 0x00000000#32
      else (withReg 3 7).x[3]? = some (.word 7)) := by decide
theorem witness_Move_hardwired : hardwired.runState = .running ∧ 0 < hardwired.k ∧ 31 < hardwired.k ∧
    (if hardwired.params.r0Hardwired = true ∧ 0 = 0 then (0x00000000#32 : Word) = 0x00000000#32
      else hardwired.x[0]? = some (.word 0)) := by decide
theorem witness_Boundary : ({ State.reset with inputs := ⟨0, true, false, false, false⟩ } : State).inputs.stopReq = true ∧
    ({ State.reset with inputs := ⟨0, false, true, false, false⟩ } : State).inputs.pauseReq = true ∧
    State.reset.inputs.stopReq = false ∧ State.reset.inputs.pauseReq = false := ⟨rfl, rfl, rfl, rfl⟩
theorem witness_Halt : ({ State.reset with runState := .halted } : State).inputs.reset = false ∧
    step { State.reset with runState := .halted } = .next (stepped { State.reset with runState := .halted }) := ⟨rfl, rfl⟩
theorem witness_RunState_halt : step (presenting 0xFC000000) = .next (stepped (presenting 0xFC000000)) ∧
    (stepped (presenting 0xFC000000)).runState ≠ (presenting 0xFC000000).runState := ⟨rfl, by decide⟩
theorem witness_RunState_pause : (stepped { State.reset with inputs := ⟨0xF8000000, false, true, false, false⟩ }).runState = .paused := by decide
theorem witness_Requests : ¬((presenting 0x30000005).performsUop = true ∧ decode (presenting 0x30000005).inputs.uop = .ok .boundary) := by decide
theorem witness_NotifyStrobe : step (presenting 0x30000005) = .next (stepped (presenting 0x30000005)) ∧
    notifyStrobe (presenting 0x30000005) (stepped (presenting 0x30000005)) = true ∧
    notifyStrobe (presenting 0xF8000000) (stepped (presenting 0xF8000000)) = false := ⟨rfl, by decide, by decide⟩
theorem witness_EndedBlock : ({ State.reset with runState := .stopped } : State).ended = true ∧
    ({ State.reset with runState := .stopped } : State).noResetFor 2 ∧
    ∃ t, runSteps 3 { State.reset with runState := .stopped } = .next t := ⟨rfl, ⟨rfl, by decide⟩, _, rfl⟩
theorem witness_FaultRecord : step (presenting 0x10000000) = .next (stepped (presenting 0x10000000)) ∧
    (stepped (presenting 0x10000000)).faultCode ≠ (presenting 0x10000000).faultCode := ⟨rfl, by decide⟩

/-- A consistent state that is FAULTED with a record: the latch was unwritten. -/
theorem witness_Consistency_faulted : (stepped (presenting 0x10000000)).Consistent := by
  refine ⟨rfl, by decide, by decide, by decide, ?_⟩
  exact ⟨.recvLsu, by decide, by decide⟩
theorem witness_Consistency_step : step (stepped (presenting 0x10000000)) = .next (stepped (stepped (presenting 0x10000000))) := rfl
theorem witness_LaunchIsConsistent : 1 ≤ 256 ∧ 256 ≤ Config.maxK ∧ Memory.wf [(0x100, 7)] = true := by decide
theorem witness_ParametersAreFixed : step State.reset = .next (stepped State.reset) := rfl
theorem witness_Ports : (withReg 31 7).port (.x 31) = some (.word 7) ∧ State.reset.port (.x 31) = some .unwritten ∧
    State.reset.port (.x 32) = none ∧ hardwired.port (.x 1) = some .unwritten ∧ hardwired.port (.x 0) = some (.word 0) := by decide

/-- The host's own check of a row: the table's word decodes and runs as the first instruction after reset. -/
theorem test_withFetchWord : decodeTableWord 32 0x30000005 = some (.seti 5) ∧
    step (State.reset.withFetchWord 32 0x30000005) = advanceOutcome (exec (.seti 5) (State.reset.withFetchWord 32 0x30000005)) := ⟨by decide, rfl⟩

end Sys2Proof.Tests
end

/-! PROOFS of the family 00_scope.md: the block's invariant (O46, O47) and the adequacy of the two lists that stand
for the parameters MEM_OK and MEM_INIT (O49, O50). -/

namespace Sys2Proof.Machine

/-! ### what the fault tables say -/

section
variable {s : State} {i : Instr}

theorem expectedFault_outOfRange {n : Nat} (hi : indexNamed i = some n) (hn : s.k ≤ n) :
    expectedFault s i = some ⟨.indexOutOfRange, word n⟩ := by
  simp [expectedFault, hi, hn]

theorem expectedFault_inRange {n : Nat} (hi : indexNamed i = some n) (hn : n < s.k) :
    expectedFault s i = (firstUnwritten s i).map (Raised.mk .unwrittenRead) := by
  simp [expectedFault, hi, Nat.not_le.mpr hn]

theorem expectedFault_unwritten {c : Word} (hi : indexNamed i = none) (hu : firstUnwritten s i = some c) :
    expectedFault s i = some ⟨.unwrittenRead, c⟩ := by
  simp [expectedFault, hi, hu]

theorem expectedFault_noAccess (hi : indexNamed i = none) (hu : firstUnwritten s i = none)
    (ha : accessMade i = none) : expectedFault s i = none := by
  simp [expectedFault, hi, hu, ha]

/-- A memory access whose cells are written: alignment first, then `MEM_OK` (R109). -/
theorem expectedFault_access {kind : Access} {a : Word} (hi : indexNamed i = none)
    (hu : firstUnwritten s i = none) (ha : accessMade i = some kind) (hl : s.lsuAddr = .word a) :
    expectedFault s i =
      if aligned a = false then some ⟨.misaligned, a⟩
      else if memOk s.params a kind = false then some ⟨.memAccess, a⟩ else none := by
  have hmod : aligned a = false ↔ a.toNat % 4 ≠ 0 := by rw [← Bool.not_eq_true, aligned_iff_mod]
  simp only [expectedFault, hi, hu, ha, hl, hmod]

/-- The codes that a micro-operation raises; IllegalMicroOp and the reserved codes are not among them
(R102, R107, R108). -/
theorem expectedFault_code {f : Raised} (h : expectedFault s i = some f) :
    f.code = .indexOutOfRange ∨ f.code = .unwrittenRead ∨ f.code = .misaligned ∨ f.code = .memAccess := by
  cases hi : indexNamed i with
  | some n =>
    by_cases hn : s.k ≤ n
    · rw [expectedFault_outOfRange hi hn] at h; cases h; simp
    · rw [expectedFault_inRange hi (Nat.lt_of_not_le hn), Option.map_eq_some_iff] at h
      obtain ⟨c, -, rfl⟩ := h
      simp
  | none =>
    cases hu : firstUnwritten s i with
    | some c => rw [expectedFault_unwritten hi hu] at h; cases h; simp
    | none =>
      cases ha : accessMade i with
      | none => simp [expectedFault_noAccess hi hu ha] at h
      | some kind =>
        cases hl : s.lsuAddr with
        | unwritten => simp [expectedFault, hi, hu, ha, hl] at h
        | word a =>
          rw [expectedFault_access hi hu ha hl] at h
          split_ifs at h <;> cases h <;> simp

/-- Fault entry changes nothing that the fault tables read (R110). -/
@[simp] theorem expectedFault_faultEntry (s : State) (i : Instr) (code : FaultCode) (info : Word) :
    expectedFault (s.faultEntry code info) i = expectedFault s i := rfl

end

/-! ### what a micro-operation does -/

/-- What every micro-operation that completes keeps of the state before it: the parameters, the inputs, the fault
record, the memory's canonical form and a hard-wired register 0; and it does not enter FAULTED. -/
structure State.Keeps (s t : State) : Prop where
  params    : t.params = s.params
  k         : t.k = s.k
  inputs    : t.inputs = s.inputs
  later     : t.later = s.later
  faultCode : t.faultCode = s.faultCode
  faultUop  : t.faultUop = s.faultUop
  faultInfo : t.faultInfo = s.faultInfo
  runState  : t.runState = .faulted → s.runState = .faulted
  memory    : Memory.wf s.mem = true → Memory.wf t.mem = true
  hardwired : s.params.r0Hardwired = true → t.x.getD 0 .unwritten = s.x.getD 0 .unwritten

/-- A rule that writes only the bus, the cells outside the register file, the pc and the counter. -/
theorem State.Keeps.of_datapath {s t : State}
    (h : t = { s with bus := t.bus, alu := t.alu, lsuAddr := t.lsuAddr, lsuData := t.lsuData, pc := t.pc, ir := t.ir,
                      notifyCount := t.notifyCount }) : s.Keeps t := by
  rw [h]
  exact ⟨rfl, rfl, rfl, rfl, rfl, rfl, rfl, id, id, fun _ => rfl⟩

/-- A rule that writes only the run state, and not FAULTED. -/
theorem State.Keeps.of_runState (s : State) {r : RunState} (hr : r ≠ .faulted) : s.Keeps { s with runState := r } :=
  ⟨rfl, rfl, rfl, rfl, rfl, rfl, rfl, fun h => absurd h hr, id, fun _ => rfl⟩

theorem State.Keeps.notify {s t : State} (h : s.Keeps t) : s.Keeps t.notify :=
  ⟨h.params, h.k, h.inputs, h.later, h.faultCode, h.faultUop, h.faultInfo, h.runState, h.memory, h.hardwired⟩

/-- A register write that does not raise keeps a hard-wired register 0 as it is (R15). -/
theorem writeReg_keeps {s t : State} {i : Nat} {w : Word} (hi : i < s.k) (h : writeReg s i w = .ok t) : s.Keeps t := by
  obtain ⟨-, -, h'⟩ | ⟨hz, h'⟩ := writeReg_cases s i w hi <;> rw [h'] at h <;> cases h
  · exact .of_datapath rfl
  · refine ⟨rfl, by simp [State.k], rfl, rfl, rfl, rfl, rfl, id, id, fun hr => ?_⟩
    have h0 : i ≠ 0 := fun h0 => hz ⟨hr, h0⟩
    simp [List.getElem?_set_ne h0]

theorem memWrite_keeps {s t : State} {a v : Word} (h : memWrite s a v = .ok t) : s.Keeps t := by
  have hwf := memWrite_wf h
  obtain ⟨-, h'⟩ | ⟨-, -, h'⟩ | ⟨-, -, h'⟩ := memWrite_cases s a v <;> rw [h'] at h <;> cases h
  exact ⟨rfl, rfl, rfl, rfl, rfl, rfl, rfl, id, hwf, fun _ => rfl⟩

/-- The outcome `o` is what the fault tables say of the micro-operation `i` in `s`: fault entry with the tabled fault,
or completion when none is tabled (R92, R101 to R110). -/
def AsTabled (s : State) (i : Instr) (o : Host.Outcome State Fault Refusal) : Prop :=
  (∃ f, expectedFault s i = some f ∧ o = .next (s.faultEntry f.code f.info)) ∨
  (expectedFault s i = none ∧ ∃ t, o = .next t ∧ s.Keeps t)

section
variable {s : State} {i : Instr}

theorem AsTabled.raise {f : Raised} (h : expectedFault s i = some f) : AsTabled s i (perform s (.error f)) :=
  .inl ⟨f, h, rfl⟩

theorem AsTabled.complete {t : State} (h : expectedFault s i = none) (ht : s.Keeps t) :
    AsTabled s i (perform s (.ok t)) :=
  .inr ⟨h, t, rfl, ht⟩

/-- A rule that reads no cell, no index and no memory always completes. -/
theorem AsTabled.of_noCell {t : State} (hi : indexNamed i = none) (ha : accessMade i = none)
    (hc : cellsRead s i = []) (ht : s.Keeps t) : AsTabled s i (perform s (.ok t)) :=
  .complete (expectedFault_noAccess hi (by simp [firstUnwritten, hc]) ha) ht

/-- A rule whose only check is that one cell is written (R104). -/
theorem AsTabled.of_oneCell {c : Cell} {n : Word} {f : Word → State} (hi : indexNamed i = none)
    (ha : accessMade i = none) (hc : cellsRead s i = [(c, n)]) (hf : ∀ w, s.Keeps (f w)) :
    AsTabled s i (perform s (val c n >>= fun w => pure (f w))) := by
  cases c with
  | unwritten => exact .raise (expectedFault_unwritten hi (by simp [firstUnwritten, hc]))
  | word w => exact .complete (expectedFault_noAccess hi (by simp [firstUnwritten, hc]) ha) (hf w)

end

/-- REG_READ: the index is checked before the register (R14, R83). -/
theorem execRegRead_asTabled (n : Nat) (s : State) : AsTabled s (.regRead n) (execRegRead n s) := by
  unfold execRegRead
  by_cases hn : s.k ≤ n
  · rw [readReg_outOfRange s n hn]
    exact .raise (expectedFault_outOfRange rfl hn)
  · have hn' : n < s.k := Nat.lt_of_not_le hn
    have hx := expectedFault_inRange (i := .regRead n) rfl hn'
    rw [readReg_inRange s n hn']
    cases hc : s.regCell n with
    | unwritten => exact .raise (by simp [hx, firstUnwritten, cellsRead, hc])
    | word w => exact .complete (by simp [hx, firstUnwritten, cellsRead, hc]) (.of_datapath rfl)

/-- REG_WRITE: only the index is checked (R15, R84). -/
theorem execRegWrite_asTabled (n : Nat) (s : State) : AsTabled s (.regWrite n) (execRegWrite n s) := by
  unfold execRegWrite
  by_cases hn : s.k ≤ n
  · rw [writeReg_outOfRange s n s.bus hn]
    exact .raise (expectedFault_outOfRange rfl hn)
  · have hn' : n < s.k := Nat.lt_of_not_le hn
    have hx : expectedFault s (.regWrite n) = none := expectedFault_inRange rfl hn'
    cases hw : writeReg s n s.bus with
    | ok t => exact .complete hx (writeReg_keeps hn' hw).notify
    | error f => obtain ⟨-, -, h⟩ | ⟨-, h⟩ := writeReg_cases s n s.bus hn' <;> simp [h] at hw

/-- LSU_LOAD: the address cell, then the memory port's checks (R87). -/
theorem execLsuLoad_asTabled (s : State) : AsTabled s .lsuLoad (execLsuLoad s) := by
  unfold execLsuLoad
  cases hl : s.lsuAddr with
  | unwritten => exact .raise (expectedFault_unwritten rfl (by simp [firstUnwritten, cellsRead, hl]))
  | word a =>
    have hx := expectedFault_access (i := .lsuLoad) rfl (by simp [firstUnwritten, cellsRead, hl]) rfl hl
    rw [val_word, ok_bind]
    obtain ⟨ha, h⟩ | ⟨ha, hm, h⟩ | ⟨ha, hm, h⟩ := memRead_cases s a <;> rw [h]
    · exact .raise (by simp [hx, ha])
    · exact .raise (by simp [hx, ha, hm])
    · exact .complete (by simp [hx, ha, hm]) (.of_datapath rfl)

/-- LSU_STORE: the address cell, the data cell, then the memory port's checks (R88). -/
theorem execLsuStore_asTabled (s : State) : AsTabled s .lsuStore (execLsuStore s) := by
  unfold execLsuStore
  cases hl : s.lsuAddr with
  | unwritten => exact .raise (expectedFault_unwritten rfl (by simp [firstUnwritten, cellsRead, hl]))
  | word a =>
    cases hd : s.lsuData with
    | unwritten => exact .raise (expectedFault_unwritten rfl (by simp [firstUnwritten, cellsRead, hl, hd]))
    | word v =>
      have hx := expectedFault_access (i := .lsuStore) rfl (by simp [firstUnwritten, cellsRead, hl, hd]) rfl hl
      rw [val_word, ok_bind, val_word, ok_bind]
      obtain ⟨ha, h⟩ | ⟨ha, hm, h⟩ | ⟨ha, hm, h⟩ := memWrite_cases s a v
      · rw [h]; exact .raise (by simp [hx, ha])
      · rw [h]; exact .raise (by simp [hx, ha, hm])
      · have ht := memWrite_keeps h
        rw [h]
        exact .complete (by simp [hx, ha, hm]) ht.notify

/-- BOUNDARY moves to STOPPED or PAUSED, or nowhere (R93). -/
theorem execBoundary_asTabled (s : State) : AsTabled s .boundary (execBoundary s) := by
  refine .of_noCell rfl rfl rfl ?_
  split_ifs
  · exact .of_runState s (by simp)
  · exact .of_runState s (by simp)
  · exact .of_datapath rfl

/-- Every micro-operation raises the tabled fault or completes, in every state (R92, R101 to R110). -/
theorem exec_asTabled (i : Instr) (s : State) : AsTabled s i (exec i s) := by
  cases i with
  | sendAlu | sendLsu | sendLsuAddr | sendPc | recvPc | sendIr | seti _ | sethi _ | pcInc | pcAddOffset | pcToLsu
  | pcToIr =>
    exact .of_noCell rfl rfl rfl (.of_datapath rfl)
  | recvAlu | recvLsu | recvIr | aluXor | aluOr | aluAnd | aluNot | aluShift | aluAdd | lsuToPc | irToPc =>
    exact .of_oneCell rfl rfl rfl fun _ => .of_datapath rfl
  | regRead n => exact execRegRead_asTabled n s
  | regWrite n => exact execRegWrite_asTabled n s
  | lsuLoad => exact execLsuLoad_asTabled s
  | lsuStore => exact execLsuStore_asTabled s
  | boundary => exact execBoundary_asTabled s
  | halt => exact .of_noCell rfl rfl rfl (.of_runState s (by simp))

/-! ### the invariant -/

/-- With no fault recorded, the record is right when it is all zero. -/
theorem State.faultExplained_of_none {s : State} (hc : s.faultCode = .none) :
    s.faultExplained ↔ s.faultUop = 0x00000000#32 ∧ s.faultInfo = 0x00000000#32 := by
  simp [State.faultExplained, hc]

/-- The record of an illegal uop is right when the uop is its own information (R102). -/
theorem State.faultExplained_of_illegal {s : State} (hc : s.faultCode = .illegalMicroOp) :
    s.faultExplained ↔ (∃ e, decode s.faultUop = .error e) ∧ s.faultInfo = s.faultUop := by
  simp [State.faultExplained, hc]

/-- The record of a micro-operation's fault is right when the tables give that fault in this state. -/
theorem State.faultExplained_of_raised {s : State} {i : Instr} (hd : decode s.faultUop = .ok i)
    (hx : expectedFault s i = some ⟨s.faultCode, s.faultInfo⟩) : s.faultExplained := by
  obtain hc | hc | hc | hc := expectedFault_code hx <;> simp only at hc <;> rw [hc] at hx <;>
    simp only [State.faultExplained, hc] <;> exact ⟨i, hd, hx⟩

namespace State.Consistent
variable {s t : State}

theorem faultCode_none (h : s.Consistent) (hr : s.runState ≠ .faulted) : s.faultCode = .none :=
  not_not.mp fun hc => hr (h.stopped.mpr hc)

/-- The invariant does not speak of the schedule of inputs. -/
theorem withInputs (h : s.Consistent) (now : Inputs) (later : List Inputs) :
    ({ s with inputs := now, later := later } : State).Consistent :=
  ⟨h.memory, h.registers, h.hardwired, h.stopped, h.explained⟩

theorem advance (h : s.Consistent) : s.advance.Consistent := h.withInputs _ _

theorem launch (p : Params) {k : Nat} {m : Memory} (h1 : 1 ≤ k) (h2 : k ≤ Config.maxK) (hm : Memory.wf m = true) :
    (State.launch p k m).Consistent where
  memory := hm
  registers := by simpa [State.k, State.launch] using ⟨h1, h2⟩
  hardwired _ := by cases k <;> rfl
  stopped := by simp [State.launch]
  explained := (State.faultExplained_of_none rfl).mpr ⟨rfl, rfl⟩

/-- Reset is a launch under the parameters, the K and the memory that stand (R119). -/
theorem resetBlock (h : s.Consistent) : s.resetBlock.Consistent := by
  rw [State.resetBlock_eq_launch]
  exact (launch s.params h.registers.1 h.registers.2 h.memory).withInputs _ _

/-- Fault entry gives a consistent state when the new record is right (R110). -/
theorem faultEntry {code : FaultCode} {info : Word} (h : s.Consistent) (hc : code ≠ .none)
    (hx : (s.faultEntry code info).faultExplained) : (s.faultEntry code info).Consistent where
  memory := h.memory
  registers := h.registers
  hardwired := h.hardwired
  stopped := by simp [hc]
  explained := hx

/-- A block that is not FAULTED stays consistent through a step that keeps it out of FAULTED and the fault record
clear. -/
theorem keeps (h : s.Consistent) (hr : s.runState ≠ .faulted) (ht : s.Keeps t) : t.Consistent := by
  have hc := h.faultCode_none hr
  have hct : t.faultCode = .none := ht.faultCode.trans hc
  refine ⟨ht.memory h.memory, ht.k.symm ▸ h.registers, fun hw => ?_, ?_, ?_⟩
  · have hw' : s.params.r0Hardwired = true := ht.params ▸ hw
    rw [ht.hardwired hw', h.hardwired hw']
  · simpa [hct] using mt ht.runState hr
  · rw [State.faultExplained_of_none hct, ht.faultUop, ht.faultInfo]
    exact (State.faultExplained_of_none hc).mp h.explained

/-- The presented uop is illegal: the record names it twice (R102). -/
theorem illegal (h : s.Consistent) (hd : ∃ e, decode s.inputs.uop = .error e) :
    (s.faultEntry .illegalMicroOp s.inputs.uop).Consistent :=
  h.faultEntry (by simp) ((State.faultExplained_of_illegal rfl).mpr ⟨hd, rfl⟩)

/-- The presented micro-operation is performed: the fault it raises is the one the tables give in the state it leaves,
for fault entry changes nothing they read. -/
theorem exec {i : Instr} (h : s.Consistent) (hr : s.runState = .running) (hd : decode s.inputs.uop = .ok i) :
    ∃ t, Machine.exec i s = .next t ∧ t.Consistent := by
  obtain ⟨f, hf, he⟩ | ⟨-, t, he, ht⟩ := exec_asTabled i s
  · have hc : f.code ≠ .none := by obtain h | h | h | h := expectedFault_code hf <;> simp [h]
    exact ⟨_, he, h.faultEntry hc (State.faultExplained_of_raised hd hf)⟩
  · exact ⟨t, he, h.keeps (by simp [hr]) ht⟩

/-- One case per event of R91. -/
theorem blockStep (h : s.Consistent) : ∃ t, Machine.blockStep s = .next t ∧ t.Consistent := by
  obtain ⟨-, hb⟩ | ⟨-, -, hd, hb⟩ | ⟨-, hr, i, hd, hb⟩ | ⟨-, hr, -, hb⟩ | ⟨-, -, hb⟩ := blockStep_cases s <;>
    rw [hb]
  · exact ⟨_, rfl, h.resetBlock⟩
  · exact ⟨_, rfl, h.illegal hd⟩
  · exact h.exec hr hd
  · exact ⟨_, rfl, h.keeps (by simp [hr]) (.of_runState s (by simp))⟩
  · exact ⟨_, rfl, h⟩

end State.Consistent

/-- Settles O46: the block's step keeps the invariant, and so does using up the sampled inputs. -/
theorem everyStepKeepsConsistency : Obligations.EveryStepKeepsConsistency := by
  intro s t hs h
  obtain ⟨u, hb, hu⟩ := hs.blockStep
  rw [step_of_blockStep hb] at h
  cases h
  exact hu.advance

/-- Settles O47. -/
theorem launchIsConsistent : Obligations.LaunchIsConsistent :=
  ⟨fun p _ _ h1 h2 hm => .launch p h1 h2 hm, .launch _ (by decide) (by decide) reset_memory_wf⟩

/-! ### the list form of MEM_OK -/

/-- One entry for each kind of access that `ok` does not accept at the address `n` (log 6). -/
def rejectionsAt (ok : Word → Access → Bool) (n : Nat) : List Rejected :=
  ([.read, .write].filter fun k => !ok (BitVec.ofNat 32 n) k).map fun k => ⟨k, n, n⟩

theorem mem_rejectionsAt {ok : Word → Access → Bool} {n : Nat} {r : Rejected} :
    r ∈ rejectionsAt ok n ↔ ok (BitVec.ofNat 32 n) r.kind = false ∧ r.first = n ∧ r.last = n := by
  obtain ⟨kind, first, last⟩ := r
  have hkind : kind = .read ∨ kind = .write := by cases kind <;> simp
  simp only [rejectionsAt, List.mem_map, List.mem_filter, List.mem_cons, List.not_mem_nil, or_false,
    Bool.not_eq_true', Rejected.mk.injEq]
  constructor
  · rintro ⟨k, ⟨-, ho⟩, rfl, rfl, rfl⟩
    exact ⟨ho, rfl, rfl⟩
  · rintro ⟨ho, rfl, rfl⟩
    exact ⟨kind, ⟨hkind, ho⟩, rfl, rfl, rfl⟩

theorem any_rejectionsAt (ok : Word → Access → Bool) (a : Word) (k : Access) (n : Nat) :
    (rejectionsAt ok n).any (fun r => rejects r a k) = true ↔ a.toNat = n ∧ ok a k = false := by
  simp only [List.any_eq_true, mem_rejectionsAt, rejects, Bool.and_eq_true, decide_eq_true_eq]
  constructor
  · rintro ⟨r, ⟨ho, hfirst, hlast⟩, ⟨rfl, h1⟩, h2⟩
    obtain rfl : a.toNat = n := by omega
    exact ⟨rfl, by simpa using ho⟩
  · rintro ⟨rfl, ho⟩
    exact ⟨⟨k, a.toNat, a.toNat⟩, ⟨by simpa using ho, rfl, rfl⟩, ⟨rfl, le_rfl⟩, le_rfl⟩

/-- The entries for all addresses below `n`. -/
def rejectionsBelow (ok : Word → Access → Bool) : Nat → List Rejected
  | 0 => []
  | n + 1 => rejectionsAt ok n ++ rejectionsBelow ok n

/-- An access is rejected by an entry exactly when its address is below `n` and `ok` does not accept it. -/
theorem any_rejectionsBelow (ok : Word → Access → Bool) (a : Word) (k : Access) (n : Nat) :
    (rejectionsBelow ok n).any (fun r => rejects r a k) = true ↔ a.toNat < n ∧ ok a k = false := by
  induction n with
  | zero => simp [rejectionsBelow]
  | succ n ih =>
    rw [rejectionsBelow, List.any_append, Bool.or_eq_true, any_rejectionsAt, ih, Nat.lt_succ_iff_lt_or_eq]
    tauto

/-- Settles O49: the list with one entry for each rejected access. -/
theorem everyMemOkIsRepresented : Obligations.EveryMemOkIsRepresented := by
  intro ok
  refine ⟨rejectionsBelow ok (2 ^ 32), fun p a k => ?_⟩
  rw [memOk, Bool.not_eq_eq_eq_not, Bool.eq_iff_iff, any_rejectionsBelow]
  simp [a.isLt]

/-! ### the list form of MEM_INIT -/

/-- The canonical memory that holds `b` at the addresses below `n` (log 7). -/
def Memory.ofBytes (b : Nat → Byte) : Nat → Memory
  | 0 => []
  | n + 1 => Memory.writeByte (Memory.ofBytes b n) n (b n)

theorem Memory.wf_ofBytes (b : Nat → Byte) {n : Nat} (hn : n ≤ 2 ^ 32) : Memory.wf (Memory.ofBytes b n) = true := by
  induction n with
  | zero => rfl
  | succ n ih => exact Memory.wf_writeByte (by omega) (ih (by omega))

theorem Memory.readByte_ofBytes (b : Nat → Byte) {n a : Nat} (hn : n ≤ 2 ^ 32) (ha : a < n) :
    Memory.readByte (Memory.ofBytes b n) a = b a := by
  induction n with
  | zero => omega
  | succ n ih =>
    rw [Memory.ofBytes]
    by_cases h : a = n
    · rw [h, Memory.readByte_writeByte_self (Memory.wf_ofBytes b (by omega))]
    · rw [Memory.readByte_writeByte_ne _ _ h, ih (by omega) (by omega)]

/-- Four bytes that are those of a Word read as that Word, in either byte order (R28, R31). -/
theorem Memory.readWord_of_bytes {e : Endian} {m : Memory} {a : Nat} {w : Word}
    (h : ∀ j < 4, Memory.readByte m (a + j) = byteAt e w j) : Memory.readWord e m a = w := by
  have h0 : Memory.readByte m a = byteAt e w 0 := h 0 (by omega)
  unfold Memory.readWord
  cases e <;> simp only [h0, h 1 (by omega), h 2 (by omega), h 3 (by omega)] <;> simp [byteAt, Endian.lane] <;>
    exact word_of_bytes w

/-- The byte at each address when the aligned Words are those of `init`: it lies in the Word that begins at the
multiple of 4 at or below it. -/
def initByte (e : Endian) (init : Word → Word) (a : Nat) : Byte :=
  byteAt e (init (BitVec.ofNat 32 (a / 4 * 4))) (a % 4)

theorem initByte_add {e : Endian} {init : Word → Word} {a : Word} {j : Nat} (ha : aligned a = true) (hj : j < 4) :
    initByte e init (a.toNat + j) = byteAt e (init a) j := by
  have hmod := (aligned_iff_mod a).mp ha
  have hword : (a.toNat + j) / 4 * 4 = a.toNat := by omega
  have hlane : (a.toNat + j) % 4 = j := by omega
  rw [initByte, hword, hlane, BitVec.ofNat_toNat, BitVec.setWidth_eq]

/-- Settles O50: the memory with all 2^32 bytes written. -/
theorem everyMemInitIsRepresented : Obligations.EveryMemInitIsRepresented := by
  intro e init
  refine ⟨Memory.ofBytes (initByte e init) (2 ^ 32), Memory.wf_ofBytes _ le_rfl, fun a ha => ?_⟩
  refine Memory.readWord_of_bytes fun j hj => ?_
  have hlast := aligned_last_byte ha
  rw [Memory.readByte_ofBytes _ le_rfl (by omega), initByte_add ha hj]

end Sys2Proof.Machine

/-! PROOFS of the family 10_state.md: what one step writes to the run state, the fault record, the notify strobe and
the parameters (O39, O42, O45, O48), the register round trip (O16) and the ports (O51). -/

namespace Sys2Proof.Machine

/-! ### what a micro-operation that completes does to the counter and the run state -/

/-- `t` is `s` after a datapath rule with `n` notifications: the counter has gone up by `n` and the block runs on as
before (R18, R97). -/
structure State.Emits (s : State) (n : Nat) (t : State) : Prop where
  notifyCount : t.notifyCount = s.notifyCount + n
  runState    : t.runState = s.runState

/-- Where the rule result `r` completes, it has emitted `n` notifications. -/
def EmitsIfOk (s : State) (n : Nat) (r : RuleResult) : Prop := ∀ t, r = .ok t → s.Emits n t

section
variable {s t : State} {n : Nat}

theorem EmitsIfOk.ok (h : s.Emits n t) : EmitsIfOk s n (.ok t) := by
  rintro u ⟨⟩
  exact h

/-- Only the last part of a rule writes; the reads and checks before it can only raise. -/
theorem EmitsIfOk.bind {α : Type} {x : Except Raised α} {f : α → RuleResult}
    (h : ∀ a, x = .ok a → EmitsIfOk s n (f a)) : EmitsIfOk s n (x >>= f) := by
  cases x with
  | ok a => exact h a rfl
  | error e => rintro u ⟨⟩

theorem State.Emits.notify (h : s.Emits n t) : s.Emits (n + 1) t.notify :=
  ⟨congrArg (· + 1) h.notifyCount, h.runState⟩

theorem writeReg_emits {i : Nat} {w : Word} (h : writeReg s i w = .ok t) : s.Emits 0 t := by
  by_cases hi : s.k ≤ i
  · simp [writeReg_outOfRange s i w hi] at h
  · obtain ⟨-, -, h'⟩ | ⟨-, h'⟩ := writeReg_cases s i w (Nat.lt_of_not_le hi) <;> rw [h'] at h <;> cases h <;>
      exact ⟨rfl, rfl⟩

theorem memWrite_emits {a v : Word} (h : memWrite s a v = .ok t) : s.Emits 0 t := by
  obtain ⟨-, h'⟩ | ⟨-, -, h'⟩ | ⟨-, -, h'⟩ := memWrite_cases s a v <;> rw [h'] at h <;> cases h
  exact ⟨rfl, rfl⟩

/-- A rule that completes in a block that is not FAULTED is no fault entry. -/
theorem EmitsIfOk.of_perform {r : RuleResult} (hr : EmitsIfOk s n r) (hs : s.runState ≠ .faulted)
    (h : perform s r = .next t) (hk : s.Keeps t) : s.Emits n t := by
  obtain ⟨u, hu, hp⟩ | ⟨f, -, hp⟩ := perform_cases s r <;> rw [hp] at h <;> cases h
  · exact hr _ hu
  · exact absurd (hk.runState rfl) hs

end

/-- Every micro-operation but BOUNDARY and HALT is a rule that emits the notifications of R98. -/
theorem exec_emitsIfOk (i : Instr) (s : State) (hb : i ≠ .boundary) (hh : i ≠ .halt) :
    ∃ r, exec i s = perform s r ∧ EmitsIfOk s (notifications i) r := by
  cases i with
  | sendAlu | sendLsu | sendLsuAddr | sendPc | recvPc | sendIr | seti _ | sethi _ | pcInc | pcAddOffset | pcToLsu
  | pcToIr =>
    refine ⟨.ok _, rfl, ?_⟩
    exact .ok ⟨rfl, rfl⟩
  | recvAlu | recvLsu | recvIr | aluXor | aluOr | aluAnd | aluNot | aluShift | aluAdd | lsuToPc | irToPc | regRead _ =>
    exact ⟨_, rfl, .bind fun _ _ => .ok ⟨rfl, rfl⟩⟩
  | regWrite _ => exact ⟨_, rfl, .bind fun _ h => .ok (writeReg_emits h).notify⟩
  | lsuLoad => exact ⟨_, rfl, .bind fun _ _ => .bind fun _ _ => .ok ⟨rfl, rfl⟩⟩
  | lsuStore => exact ⟨_, rfl, .bind fun _ _ => .bind fun _ _ => .bind fun _ h => .ok (memWrite_emits h).notify⟩
  | boundary => exact absurd rfl hb
  | halt => exact absurd rfl hh

/-- The run state after BOUNDARY: a stop request wins over a pause request (R93). -/
def State.boundaryRunState (s : State) : RunState :=
  if s.inputs.stopReq then .stopped else if s.inputs.pauseReq then .paused else s.runState

/-- Without a request BOUNDARY leaves the run state as it is. -/
theorem State.boundaryRunState_of_ne {s : State} (h : s.boundaryRunState ≠ s.runState) :
    (s.inputs.stopReq = true ∧ s.boundaryRunState = .stopped) ∨
    (s.inputs.stopReq = false ∧ s.inputs.pauseReq = true ∧ s.boundaryRunState = .paused) := by
  cases hs : s.inputs.stopReq with
  | true => exact .inl ⟨rfl, by simp [State.boundaryRunState, hs]⟩
  | false =>
    cases hp : s.inputs.pauseReq with
    | true => exact .inr ⟨rfl, rfl, by simp [State.boundaryRunState, hs, hp]⟩
    | false => simp [State.boundaryRunState, hs, hp] at h

theorem exec_boundary (s : State) : exec .boundary s = .next { s with runState := s.boundaryRunState } := by
  change execBoundary s = _
  unfold execBoundary State.boundaryRunState
  split_ifs <;> rfl

theorem exec_halt (s : State) : exec .halt s = .next { s with runState := .halted } := rfl

/-- What a micro-operation that completes leaves of the counter and the run state: only BOUNDARY and HALT write the
run state, and neither of them notifies (R93, R94, R98). -/
theorem exec_completed {s t : State} {i : Instr} (hs : s.runState ≠ .faulted) (h : exec i s = .next t)
    (hk : s.Keeps t) :
    (i = .boundary ∧ t = { s with runState := s.boundaryRunState }) ∨
    (i = .halt ∧ t = { s with runState := .halted }) ∨ s.Emits (notifications i) t := by
  by_cases hb : i = .boundary
  · subst hb
    rw [exec_boundary] at h
    cases h
    exact .inl ⟨rfl, rfl⟩
  by_cases hh : i = .halt
  · subst hh
    rw [exec_halt] at h
    cases h
    exact .inr (.inl ⟨rfl, rfl⟩)
  obtain ⟨r, hr, hn⟩ := exec_emitsIfOk i s hb hh
  exact .inr (.inr (hn.of_perform hs (hr ▸ h) hk))

theorem exec_notifyCount {s t : State} {i : Instr} (hs : s.runState ≠ .faulted) (h : exec i s = .next t)
    (hk : s.Keeps t) : t.notifyCount = s.notifyCount + notifications i := by
  obtain ⟨rfl, rfl⟩ | ⟨rfl, rfl⟩ | he := exec_completed hs h hk
  · rfl
  · rfl
  · exact he.notifyCount

theorem expectedFault_code_ne_none {s : State} {i : Instr} {f : Raised} (h : expectedFault s i = some f) :
    f.code ≠ .none := by
  obtain hc | hc | hc | hc := expectedFault_code h <;> simp [hc]

/-! ### the events of a step -/

/-- The events of R91 with what each leaves of the block `s`; a micro-operation that is performed raises its tabled
fault or completes. -/
inductive State.Event (s : State) : State → Prop
  | reset (hr : s.inputs.reset = true) : Event s s.resetBlock
  | illegal {e : IllegalReason} (hr : s.inputs.reset = false) (hs : s.runState = .running)
      (hd : decode s.inputs.uop = .error e) : Event s (s.faultEntry .illegalMicroOp s.inputs.uop)
  | raise {i : Instr} {f : Raised} (hr : s.inputs.reset = false) (hs : s.runState = .running)
      (hd : decode s.inputs.uop = .ok i) (hf : expectedFault s i = some f) : Event s (s.faultEntry f.code f.info)
  | complete {i : Instr} {t : State} (hr : s.inputs.reset = false) (hs : s.runState = .running)
      (hd : decode s.inputs.uop = .ok i) (hf : expectedFault s i = none) (he : exec i s = .next t)
      (hk : s.Keeps t) : Event s t
  | resume (hr : s.inputs.reset = false) (hs : s.runState = .paused) (hp : s.inputs.resume = true) :
      Event s { s with runState := .running }
  | hold (hr : s.inputs.reset = false) (hs : s.runState ≠ .running) : Event s s

theorem blockStep_event (s : State) : ∃ u, blockStep s = .next u ∧ s.Event u := by
  obtain ⟨hr, hb⟩ | ⟨hr, hs, ⟨e, hd⟩, hb⟩ | ⟨hr, hs, i, hd, hb⟩ | ⟨hr, hs, hp, hb⟩ | ⟨hr, hs, hb⟩ :=
    blockStep_cases s
  · exact ⟨_, hb, .reset hr⟩
  · exact ⟨_, hb, .illegal hr hs hd⟩
  · obtain ⟨f, hf, he⟩ | ⟨hf, t, he, hk⟩ := exec_asTabled i s
    · exact ⟨_, hb.trans he, .raise hr hs hd hf⟩
    · exact ⟨_, hb.trans he, .complete hr hs hd hf he hk⟩
  · exact ⟨_, hb, .resume hr hs hp⟩
  · exact ⟨_, hb, .hold hr hs⟩

/-- Every step is one event, after which the inputs it sampled are used up (R20, R91). -/
theorem step_event {s t : State} (h : step s = .next t) : ∃ u, s.Event u ∧ t = u.advance := by
  obtain ⟨u, hb, hu⟩ := blockStep_event s
  rw [step_of_blockStep hb] at h
  cases h
  exact ⟨u, hu, rfl⟩

theorem State.performsUop_iff {s : State} :
    s.performsUop = true ↔ s.inputs.reset = false ∧ s.runState = .running := by
  simp [State.performsUop]

theorem notifyStrobe_iff {s t : State} : notifyStrobe s t = true ↔ s.notifyCount < t.notifyCount := by
  simp [notifyStrobe]

/-! ### what the events write -/

/-- Settles O39: of the micro-operations that complete, only BOUNDARY on a request and HALT write the run state. -/
theorem runStateChangesOnlyByItsEvents : Obligations.RunStateChangesOnlyByItsEvents := by
  intro s t h hne
  obtain ⟨u, hu, rfl⟩ := step_event h
  rw [State.advance_runState] at hne
  cases hu with
  | reset hr => exact .inl ⟨hr, rfl⟩
  | illegal _ hs _ => exact .inr (.inr (.inr (.inr ⟨hs, rfl, by simp⟩)))
  | raise _ hs _ hf => exact .inr (.inr (.inr (.inr ⟨hs, rfl, expectedFault_code_ne_none hf⟩)))
  | complete _ hs hd _ he hk =>
    obtain ⟨rfl, rfl⟩ | ⟨rfl, rfl⟩ | hn := exec_completed (by simp [hs]) he hk
    · exact .inr (.inr (.inl ⟨hs, hd, State.boundaryRunState_of_ne hne⟩))
    · exact .inr (.inr (.inr (.inl ⟨hs, hd, rfl⟩)))
    · exact absurd hn.runState hne
  | resume _ hs hp => exact .inr (.inl ⟨hs, hp, rfl⟩)
  | hold => exact absurd rfl hne

/-- Settles O42: of all events only the completion of a micro-operation raises the counter. -/
theorem notifyStrobeIsHighWhenNotified : Obligations.NotifyStrobeIsHighWhenNotified := by
  intro s t h
  obtain ⟨u, hu, rfl⟩ := step_event h
  rw [notifyStrobe_iff, State.performsUop_iff, State.advance_notifyCount]
  cases hu with
  | reset hr => simp [hr]
  | illegal _ _ hd => simp [hd]
  | raise _ _ hd hf => simp [hd, hf]
  | complete hr hs hd hf he hk =>
    rw [exec_notifyCount (by simp [hs]) he hk]
    simp [hr, hs, hd, hf]
  | resume _ hs => simp [hs]
  | hold _ hs => simp [hs]

/-- Settles O45: resume and hold leave the record alone as a micro-operation that completes does. -/
theorem faultRecordWrittenOnlyByFaults : Obligations.FaultRecordWrittenOnlyByFaults := by
  intro s t h hne
  obtain ⟨u, hu, rfl⟩ := step_event h
  simp only [State.advance_faultCode, State.advance_faultUop, State.advance_faultInfo] at hne
  cases hu with
  | reset hr => exact .inl hr
  | illegal _ hs _ => exact .inr ⟨hs, rfl, rfl⟩
  | raise _ hs _ _ => exact .inr ⟨hs, rfl, rfl⟩
  | complete _ _ _ _ _ hk => simp [hk.faultCode, hk.faultUop, hk.faultInfo] at hne
  | resume => simp at hne
  | hold => simp at hne

/-- Settles O48. -/
theorem parametersAreFixed : Obligations.ParametersAreFixed := by
  intro s t h
  obtain ⟨u, hu, rfl⟩ := step_event h
  rw [State.advance_params, State.advance_k]
  cases hu with
  | reset => exact ⟨rfl, s.resetBlock_k⟩
  | complete _ _ _ _ _ hk => exact ⟨hk.params, hk.k⟩
  | illegal | raise | resume | hold => exact ⟨rfl, rfl⟩

/-! ### registers and ports -/

/-- A register with storage shows what its cell holds (R13). -/
theorem State.regCell_of_storage {s : State} {i : Nat} {c : Cell} (hz : ¬(s.params.r0Hardwired = true ∧ i = 0))
    (hx : s.x[i]? = some c) : s.regCell i = c := by
  simp [State.regCell, hz, hx]

theorem State.regCell_hardwired {s : State} (h : s.params.r0Hardwired = true) :
    s.regCell 0 = .word 0x00000000#32 := by
  simp [State.regCell, h]

/-- REG_WRITE of a register with storage, with its whole frame (R15, R84). -/
theorem exec_regWrite_of_storage {s : State} {i : Nat} (hi : i < s.k)
    (hz : ¬(s.params.r0Hardwired = true ∧ i = 0)) :
    exec (.regWrite i) s = .next { s with x := s.x.set i (.word s.bus) }.notify := by
  change execRegWrite i s = _
  obtain ⟨hw, h0, -⟩ | ⟨-, h⟩ := writeReg_cases s i s.bus hi
  · exact absurd ⟨hw, h0⟩ hz
  · simp [execRegWrite, h]

/-- REG_READ of a register that shows a Word, with its whole frame (R14, R83). -/
theorem exec_regRead_of_word {s : State} {i : Nat} {w : Word} (hi : i < s.k) (hc : s.regCell i = .word w) :
    exec (.regRead i) s = .next { s.notify with bus := w }.notify := by
  change execRegRead i s = _
  simp [execRegRead, readReg_inRange s i hi, hc]

/-- Settles O16: the list of registers holds the Word at the index written, and the read finds it there. -/
theorem registerWriteReadRoundTrip : Obligations.RegisterWriteReadRoundTrip := by
  intro s t m i hi hz h hx hp
  rw [exec_regWrite_of_storage hi hz] at h
  cases h
  have hx' : m.x = s.x.set i (.word s.bus) := hx
  have hp' : m.params = s.params := hp
  have hk : i < m.k := by rwa [State.k_def, hx', List.length_set]
  have hcell : m.x[i]? = some (.word s.bus) := by rw [hx', List.getElem?_set_self hi]
  have hread : m.regCell i = .word s.bus := State.regCell_of_storage (hp' ▸ hz) hcell
  exact ⟨_, exec_regRead_of_word hk hread, rfl, rfl, rfl⟩

theorem State.port_x {s : State} {i : Nat} (hi : i < s.k) : s.port (.x i) = some (portOfCell (s.regCell i)) := by
  simp [State.port, hi]

/-- The numbers of R101, read from a table. -/
theorem FaultCode.number_of_mem {c : FaultCode} {n : BitVec 3}
    (h : (c, n) ∈ [(FaultCode.none, 0#3), (.illegalMicroOp, 1#3), (.indexOutOfRange, 2#3), (.unwrittenRead, 3#3),
      (.misaligned, 4#3), (.memAccess, 5#3), (.lengthMismatch, 6#3), (.formatError, 7#3)]) : c.number = n := by
  cases c <;> simp at h <;> exact h.symm

/-- The port of a slot of the datapath shows what the slot holds. -/
theorem port_of_slot {s : State} {p : Port} {c d : Cell} (hp : s.port p = some (portOfCell c)) (hc : c = d) :
    s.port p = some (portOfCell d) := hc ▸ hp

/-- Settles O51. -/
theorem portsShowTheElements : Obligations.PortsShowTheElements := by
  intro s
  refine ⟨rfl, rfl, rfl, fun v => ⟨?_, ?_, ?_, ?_⟩, ?_, ?_, ?_, ?_, fun i hi hz => ⟨fun hx => ?_, fun v hx => ?_⟩,
    fun hw hk => ?_, fun c n hm hc => ?_, rfl, rfl, rfl, rfl⟩
  · exact port_of_slot (p := .alu) rfl
  · exact port_of_slot (p := .lsuAddr) rfl
  · exact port_of_slot (p := .lsuData) rfl
  · exact port_of_slot (p := .ir) rfl
  · exact port_of_slot (p := .alu) rfl
  · exact port_of_slot (p := .lsuAddr) rfl
  · exact port_of_slot (p := .lsuData) rfl
  · exact port_of_slot (p := .ir) rfl
  · rw [State.port_x hi, State.regCell_of_storage hz hx]; rfl
  · rw [State.port_x hi, State.regCell_of_storage hz hx]; rfl
  · rw [State.port_x hk, State.regCell_hardwired hw]; rfl
  · rw [← FaultCode.number_of_mem hm, ← hc]; rfl

end Sys2Proof.Machine

/-! PROOFS of the family 20_memory.md: the byte order cannot be observed (O34), memory changes only by a store (O32),
and a load from the address of the last store (O33). -/

namespace Sys2Proof.Machine

/-! ### the load/store unit's micro-operations when they complete -/

theorem exec_of_expectedFault {s : State} {i : Instr} {f : Raised} (h : expectedFault s i = some f) :
    exec i s = .next (s.faultEntry f.code f.info) := by
  obtain ⟨g, hg, he⟩ | ⟨hn, -⟩ := exec_asTabled i s
  · rw [h] at hg
    cases hg
    exact he
  · simp [h] at hn

/-- A store that raises no fault has both latches written and an aligned address, and it writes that one Word and
notifies (R88). -/
theorem exec_lsuStore_of_noFault {s : State} (h : expectedFault s .lsuStore = none) :
    ∃ a v, s.lsuAddr = .word a ∧ s.lsuData = .word v ∧ aligned a = true ∧
      exec .lsuStore s = .next { s with mem := Memory.writeWord s.params.endian s.mem a.toNat v }.notify := by
  cases hl : s.lsuAddr with
  | unwritten =>
    have hu : firstUnwritten s .lsuStore = some lsuAddrCell := by simp [firstUnwritten, cellsRead, hl]
    simp [expectedFault_unwritten rfl hu] at h
  | word a =>
    cases hd : s.lsuData with
    | unwritten =>
      have hu : firstUnwritten s .lsuStore = some lsuDataCell := by simp [firstUnwritten, cellsRead, hl, hd]
      simp [expectedFault_unwritten rfl hu] at h
    | word v =>
      rw [expectedFault_access rfl (by simp [firstUnwritten, cellsRead, hl, hd]) rfl hl] at h
      refine ⟨a, v, rfl, rfl, ?_⟩
      change _ ∧ execLsuStore s = _
      obtain ⟨ha, -⟩ | ⟨ha, hm, -⟩ | ⟨ha, -, hw⟩ := memWrite_cases s a v
      · simp [ha] at h
      · simp [ha, hm] at h
      · exact ⟨ha, by simp [execLsuStore, hl, hd, hw]⟩

/-- A load from an aligned address that the memory accepts (R87). -/
theorem exec_lsuLoad_of_accepted {s : State} {a : Word} (hl : s.lsuAddr = .word a) (ha : aligned a = true)
    (hm : memOk s.params a .read = true) :
    exec .lsuLoad s =
      .next { s with lsuData := .word (Memory.readWord s.params.endian s.mem a.toNat) }.notify := by
  change execLsuLoad s = _
  simp [execLsuLoad, hl, memRead, ha, hm]

/-- Settles O33: the Word written reads back in the byte order it was written in. -/
theorem loadAfterStoreReturnsTheWord : Obligations.LoadAfterStoreReturnsTheWord := by
  intro s t m a v hwf hl hd hf h hmem hparams hlm hok
  obtain ⟨a', v', hl', hd', ha, he⟩ := exec_lsuStore_of_noFault hf
  obtain rfl : a = a' := Cell.word.inj (hl.symm.trans hl')
  obtain rfl : v = v' := Cell.word.inj (hd.symm.trans hd')
  rw [he] at h
  cases h
  have hread : Memory.readWord m.params.endian m.mem a.toNat = v := by
    rw [hmem, hparams]
    exact Memory.readWord_writeWord_self (aligned_last_byte ha) hwf
  rw [exec_lsuLoad_of_accepted hlm ha hok, hread]
  rfl

/-! ### the same block over a memory in another byte order -/

/-- The block `s` over the memory `m`, whose Words lie in the byte order `e`. -/
def State.relaid (s : State) (e : Endian) (m : Memory) : State :=
  { s with mem := m, params := { s.params with endian := e } }

theorem sameButByteOrder_iff {s t : State} :
    sameButByteOrder s t ↔ sameWords s t ∧ t = s.relaid t.params.endian t.mem := Iff.rfl

@[simp] theorem memOk_relaid (s : State) (e : Endian) (m : Memory) (a : Word) (k : Access) :
    memOk (s.relaid e m).params a k = memOk s.params a k := rfl

/-- No fault table reads the memory's contents or the byte order (R101 to R109). -/
theorem expectedFault_relaid (s : State) (i : Instr) (e : Endian) (m : Memory) :
    expectedFault (s.relaid e m) i = expectedFault s i := rfl

/-- The memory `m` holds in the byte order `e` the Words that `s` holds in its own, and both are canonical. -/
structure State.Relays (s : State) (e : Endian) (m : Memory) : Prop where
  words   : sameWords s (s.relaid e m)
  memory  : Memory.wf s.mem = true
  relaid  : Memory.wf m = true

theorem State.Relays.frame {s u : State} {e : Endian} {m : Memory} (h : s.Relays e m) (hm : u.mem = s.mem)
    (hp : u.params = s.params) : u.Relays e m where
  words a ha := by
    rw [hm, hp]
    exact h.words a ha
  memory := hm ▸ h.memory
  relaid := h.relaid

/-- Storing one Word in both memories, in each in its own byte order, keeps all their Words the same (R31, R35). -/
theorem State.Relays.store {s : State} {e : Endian} {m : Memory} {a v : Word} (h : s.Relays e m)
    (ha : aligned a = true) :
    ({ s with mem := Memory.writeWord s.params.endian s.mem a.toNat v } : State).Relays e
      (Memory.writeWord e m a.toNat v) where
  words c hc := by
    change Memory.readWord s.params.endian (Memory.writeWord s.params.endian s.mem a.toNat v) c.toNat =
      Memory.readWord e (Memory.writeWord e m a.toNat v) c.toNat
    have hlast := aligned_last_byte ha
    by_cases hac : a = c
    · subst hac
      rw [Memory.readWord_writeWord_self hlast h.memory, Memory.readWord_writeWord_self hlast h.relaid]
    · have hd := aligned_disjoint ha hc hac
      rw [Memory.readWord_writeWord_other hd, Memory.readWord_writeWord_other hd]
      exact h.words c hc
  memory := Memory.wf_writeWord (aligned_last_byte ha) h.memory
  relaid := Memory.wf_writeWord (aligned_last_byte ha) h.relaid

/-! ### rules that do not write memory -/

/-- A register write reads only `K` and `R0_HARDWIRED` (R15). -/
theorem writeReg_relaid (s : State) (e : Endian) (m : Memory) (i : Nat) (w : Word) :
    writeReg (s.relaid e m) i w = (writeReg s i w).map (State.relaid · e m) := by
  rw [writeReg, writeReg, apply_ite (Except.map _), apply_ite (Except.map _)]
  rfl

/-- `MemRead` sees the memory as Words only (R25, R31). -/
theorem memRead_relaid (s : State) (e : Endian) (m : Memory) (a : Word) (h : sameWords s (s.relaid e m)) :
    memRead (s.relaid e m) a = memRead s a := by
  obtain ⟨ha, hr⟩ | ⟨ha, hm, hr⟩ | ⟨ha, hm, hr⟩ := memRead_cases s a <;> rw [hr]
  · simp [memRead, ha]
  · simp [memRead, ha, hm]
  · simp [memRead, ha, hm, h a ha]

/-- The rule `r` writes neither memory nor parameters, and it does the same over any memory that holds the same
Words. -/
structure LeavesMemory (r : State → RuleResult) : Prop where
  frame {s u : State} : r s = .ok u → u.mem = s.mem ∧ u.params = s.params
  relaid {s : State} {e : Endian} {m : Memory} :
    sameWords s (s.relaid e m) → r (s.relaid e m) = (r s).map (State.relaid · e m)

namespace LeavesMemory

theorem ok {f : State → State} (hf : ∀ s, (f s).mem = s.mem ∧ (f s).params = s.params)
    (hr : ∀ s e m, f (s.relaid e m) = (f s).relaid e m) : LeavesMemory fun s => .ok (f s) where
  frame := by
    rintro s u ⟨⟩
    exact hf s
  relaid _ := congrArg Except.ok (hr _ _ _)

/-- A rule goes on from what it read or checked, which is the same over both memories. -/
theorem bind {α : Type} {x : State → Except Raised α} {f : State → α → RuleResult}
    (hx : ∀ s e m, sameWords s (s.relaid e m) → x (s.relaid e m) = x s)
    (hf : ∀ a, LeavesMemory fun s => f s a) : LeavesMemory fun s => x s >>= f s where
  frame {s u} h := by
    cases hs : x s with
    | error e => simp [hs] at h
    | ok a => exact (hf a).frame (by simpa [hs] using h)
  relaid {s e m} h := by
    rw [hx s e m h]
    cases x s with
    | error e => rfl
    | ok a => exact (hf a).relaid h

theorem notify {r : State → RuleResult} (hr : LeavesMemory r) :
    LeavesMemory fun s => r s >>= fun t => pure t.notify where
  frame {s u} h := by
    cases hs : r s with
    | error e => simp [hs] at h
    | ok t =>
      simp only [hs, ok_bind, pure_eq_ok, Except.ok.injEq] at h
      have ht := hr.frame hs
      exact h ▸ ht
  relaid {s e m} h := by
    rw [hr.relaid h]
    cases r s <;> rfl

/-- A register write is no memory write (R15). -/
theorem writeReg (i : Nat) : LeavesMemory fun s => Machine.writeReg s i s.bus where
  frame {s u} h := by
    by_cases hi : s.k ≤ i
    · simp [writeReg_outOfRange s i s.bus hi] at h
    · obtain ⟨-, -, h'⟩ | ⟨-, h'⟩ := writeReg_cases s i s.bus (Nat.lt_of_not_le hi) <;> rw [h'] at h <;> cases h <;>
        exact ⟨rfl, rfl⟩
  relaid {s e m} _ := writeReg_relaid s e m i s.bus

/-- The rule performed in both blocks: the same fault entry, or completion with the same writes. -/
theorem perform {r : State → RuleResult} (hr : LeavesMemory r) (s : State) :
    ∃ u, Machine.perform s (r s) = .next u ∧ u.mem = s.mem ∧ u.params = s.params ∧
      ∀ e m, sameWords s (s.relaid e m) →
        Machine.perform (s.relaid e m) (r (s.relaid e m)) = .next (u.relaid e m) := by
  obtain ⟨u, hu, hp⟩ | ⟨f, hf, hp⟩ := perform_cases s (r s)
  · obtain ⟨hmem, hparams⟩ := hr.frame hu
    refine ⟨u, hp, hmem, hparams, fun e m h => ?_⟩
    rw [hr.relaid h, hu]
    rfl
  · refine ⟨_, hp, rfl, rfl, fun e m h => ?_⟩
    rw [hr.relaid h, hf]
    rfl

end LeavesMemory

/-- Every micro-operation but LSU_STORE is a rule that leaves memory alone (R27, R35). -/
theorem exec_leavesMemory (i : Instr) (hi : i ≠ .lsuStore) :
    ∃ r, (∀ s, exec i s = perform s (r s)) ∧ LeavesMemory r := by
  cases i with
  | sendAlu | sendLsu | sendLsuAddr | sendPc | recvPc | sendIr | seti _ | sethi _ | pcInc | pcAddOffset | pcToLsu
  | pcToIr | halt =>
    refine ⟨fun _ => .ok _, fun _ => rfl, ?_⟩
    exact .ok (fun _ => ⟨rfl, rfl⟩) fun _ _ _ => rfl
  | recvAlu | recvLsu | recvIr | aluXor | aluOr | aluAnd | aluNot | aluShift | aluAdd | lsuToPc | irToPc | regRead _ =>
    exact ⟨_, fun _ => rfl, .bind (fun _ _ _ _ => rfl) fun _ => .ok (fun _ => ⟨rfl, rfl⟩) fun _ _ _ => rfl⟩
  | regWrite n => exact ⟨_, fun _ => rfl, (LeavesMemory.writeReg n).notify⟩
  | lsuLoad =>
    exact ⟨_, fun _ => rfl, .bind (fun _ _ _ _ => rfl) fun a => .bind (fun s e m => memRead_relaid s e m a)
      fun _ => .ok (fun _ => ⟨rfl, rfl⟩) fun _ _ _ => rfl⟩
  | boundary => exact ⟨fun _ => .ok _, exec_boundary, .ok (fun _ => ⟨rfl, rfl⟩) fun _ _ _ => rfl⟩
  | lsuStore => exact absurd rfl hi

/-! ### memory changes only by a store -/

/-- The step performs an LSU_STORE that raises no fault. -/
def State.Stores (s : State) : Prop :=
  s.performsUop = true ∧ decode s.inputs.uop = .ok .lsuStore ∧ expectedFault s .lsuStore = none

/-- Every event but the completion of an LSU_STORE leaves memory alone, and that one writes the Word at the address
latch (R27, R35, R36). -/
theorem State.Event.mem_cases {s u : State} (h : s.Event u) :
    (¬ s.Stores ∧ u.mem = s.mem) ∨
    (s.Stores ∧ ∃ a v, s.lsuAddr = .word a ∧ s.lsuData = .word v ∧ aligned a = true ∧
      u.mem = Memory.writeWord s.params.endian s.mem a.toNat v) := by
  cases h with
  | reset hr => exact .inl ⟨fun h => by simp [(State.performsUop_iff.mp h.1).1] at hr, rfl⟩
  | illegal _ _ hd => exact .inl ⟨fun h => by simp [h.2.1] at hd, rfl⟩
  | resume _ hs => exact .inl ⟨fun h => by simp [(State.performsUop_iff.mp h.1).2] at hs, rfl⟩
  | hold _ hs => exact .inl ⟨fun h => hs (State.performsUop_iff.mp h.1).2, rfl⟩
  | @raise i f _ _ hd hf =>
    refine .inl ⟨fun ⟨_, hd', hn⟩ => ?_, rfl⟩
    obtain rfl : i = .lsuStore := Except.ok.inj (hd.symm.trans hd')
    simp [hn] at hf
  | @complete i _ hr hs hd hf he _ =>
    by_cases hi : i = .lsuStore
    · subst hi
      obtain ⟨a, v, hl, hv, ha, he'⟩ := exec_lsuStore_of_noFault hf
      rw [he'] at he
      cases he
      exact .inr ⟨⟨State.performsUop_iff.mpr ⟨hr, hs⟩, hd, hf⟩, a, v, hl, hv, ha, rfl⟩
    · obtain ⟨r, hexec, hleaves⟩ := exec_leavesMemory i hi
      obtain ⟨t, ht, hmem, -⟩ := hleaves.perform s
      rw [hexec, ht] at he
      cases he
      exact .inl ⟨fun ⟨_, hd', _⟩ => hi (Except.ok.inj (hd.symm.trans hd')), hmem⟩

/-- Settles O32: a store to another aligned address shares no byte with this Word. -/
theorem memoryChangesOnlyByStore : Obligations.MemoryChangesOnlyByStore := by
  intro s t a hwf ha h
  obtain ⟨hparams, -⟩ := parametersAreFixed s t h
  obtain ⟨u, hu, rfl⟩ := step_event h
  rw [hparams, State.advance_mem]
  obtain ⟨hn, hmem⟩ | ⟨⟨hp, hd, hf⟩, b, v, hl, hv, hb, hmem⟩ := hu.mem_cases
  · rw [if_neg fun ⟨hp, hd, hf, _⟩ => hn ⟨hp, hd, hf⟩, hmem]
  · rw [hmem]
    by_cases hab : b = a
    · subst hab
      rw [if_pos ⟨hp, hd, hf, hl⟩, hv, Memory.readWord_writeWord_self (aligned_last_byte hb) hwf]
    · rw [if_neg fun ⟨_, _, _, hl'⟩ => hab (Cell.word.inj (hl.symm.trans hl')),
        Memory.readWord_writeWord_other (aligned_disjoint hb ha hab)]

/-! ### the byte order cannot be observed -/

/-- Both outcomes are next states that differ in the byte order alone, over the same Words. -/
def OutcomesRelay (e : Endian) (o p : Host.Outcome State Fault Refusal) : Prop :=
  ∃ u m, o = .next u ∧ p = .next (u.relaid e m) ∧ u.Relays e m

section
variable {s : State} {e : Endian} {m : Memory}

/-- A store goes to the same Word of both memories, or raises the same fault. -/
theorem execLsuStore_relays (h : s.Relays e m) :
    OutcomesRelay e (exec .lsuStore s) (exec .lsuStore (s.relaid e m)) := by
  cases hf : expectedFault s .lsuStore with
  | some f =>
    have hf' : expectedFault (s.relaid e m) .lsuStore = some f := (expectedFault_relaid s _ e m).trans hf
    exact ⟨_, m, exec_of_expectedFault hf, exec_of_expectedFault hf', h.frame rfl rfl⟩
  | none =>
    obtain ⟨a, v, hl, hd, ha, he⟩ := exec_lsuStore_of_noFault hf
    have hf' : expectedFault (s.relaid e m) .lsuStore = none := (expectedFault_relaid s _ e m).trans hf
    obtain ⟨a', v', hl', hd', -, he'⟩ := exec_lsuStore_of_noFault hf'
    obtain rfl : a = a' := Cell.word.inj (hl.symm.trans hl')
    obtain rfl : v = v' := Cell.word.inj (hd.symm.trans hd')
    exact ⟨_, _, he, he', (h.store ha).frame rfl rfl⟩

theorem exec_relays (i : Instr) (h : s.Relays e m) : OutcomesRelay e (exec i s) (exec i (s.relaid e m)) := by
  by_cases hi : i = .lsuStore
  · exact hi ▸ execLsuStore_relays h
  · obtain ⟨r, hexec, hleaves⟩ := exec_leavesMemory i hi
    obtain ⟨u, hu, hmem, hparams, hrelaid⟩ := hleaves.perform s
    rw [hexec, hexec]
    exact ⟨u, m, hu, hrelaid e m h.words, h.frame hmem hparams⟩

theorem runningStep_relays (h : s.Relays e m) :
    OutcomesRelay e (runningStep s) (runningStep (s.relaid e m)) := by
  cases hd : decode s.inputs.uop with
  | error =>
    exact ⟨_, m, runningStep_illegal hd, runningStep_illegal (s := s.relaid e m) hd, h.frame rfl rfl⟩
  | ok i =>
    rw [runningStep_exec hd, runningStep_exec (s := s.relaid e m) hd]
    exact exec_relays i h

theorem pausedStep_relaid : (s.relaid e m).pausedStep = s.pausedStep.relaid e m := by
  cases hp : s.inputs.resume with
  | true => rw [State.pausedStep_resumed s hp, State.pausedStep_resumed (s.relaid e m) hp]; rfl
  | false => rw [State.pausedStep_held s hp, State.pausedStep_held (s.relaid e m) hp]

theorem pausedStep_frame (s : State) : s.pausedStep.mem = s.mem ∧ s.pausedStep.params = s.params := by
  cases hp : s.inputs.resume with
  | true => rw [State.pausedStep_resumed s hp]; exact ⟨rfl, rfl⟩
  | false => rw [State.pausedStep_held s hp]; exact ⟨rfl, rfl⟩

/-- The byte order chooses no branch of the block's step (R91). -/
theorem blockStep_relays (h : s.Relays e m) : OutcomesRelay e (blockStep s) (blockStep (s.relaid e m)) := by
  cases hr : s.inputs.reset with
  | true => exact ⟨_, m, blockStep_reset hr, blockStep_reset (s := s.relaid e m) hr, h.frame rfl rfl⟩
  | false =>
    have hr' : (s.relaid e m).inputs.reset = false := hr
    have hfinal (hs : s.runState = .stopped ∨ s.runState = .halted ∨ s.runState = .faulted) :
        OutcomesRelay e (blockStep s) (blockStep (s.relaid e m)) :=
      ⟨s, m, blockStep_final hr hs, blockStep_final hr' hs, h⟩
    cases hs : s.runState with
    | running =>
      rw [blockStep_running hr hs, blockStep_running hr' hs]
      exact runningStep_relays h
    | paused =>
      obtain ⟨hmem, hparams⟩ := pausedStep_frame s
      rw [blockStep_paused hr hs, blockStep_paused hr' hs, pausedStep_relaid]
      exact ⟨_, m, rfl, rfl, h.frame hmem hparams⟩
    | stopped | halted | faulted => exact hfinal (by simp [hs])

end

/-- Settles O34: a step of the relaid block is the relaid step, and the inputs it used up are the same. -/
theorem byteOrderIsNotObservable : Obligations.ByteOrderIsNotObservable := by
  intro s t hs ht hst
  obtain ⟨hwords, hrelaid⟩ := sameButByteOrder_iff.mp hst
  obtain ⟨u, m, hu, hv, h⟩ := blockStep_relays (s := s) ⟨hrelaid ▸ hwords, hs, ht⟩
  rw [← hrelaid] at hv
  exact ⟨_, _, step_of_blockStep hu, step_of_blockStep hv, ⟨h.words, rfl⟩, h.memory, h.relaid⟩

end Sys2Proof.Machine

/-! PROOFS of the family 30_encoding.md: decoding and encoding are inverse to each other (O1, O2), the masks and the
illegal uops of R43 and R47 (O3, O4), words and lines written out (O5, O6), and the expansions of R50 (O36). -/

namespace Sys2Proof

/-! ### the four fields of a uop, as numbers -/

section
variable (op : BitVec 6) (z : BitVec 2) (r : BitVec 8) (imm : BitVec 16) (w : Word)

theorem opField_toNat : (opField w).toNat = w.toNat / 2 ^ 26 := by
  have := w.isLt
  rw [opField, BitVec.extractLsb'_toNat, Nat.shiftRight_eq_div_pow]
  omega

theorem zField_toNat : (zField w).toNat = w.toNat / 2 ^ 24 % 4 := by
  rw [zField, BitVec.extractLsb'_toNat, Nat.shiftRight_eq_div_pow]

theorem rField_toNat : (rField w).toNat = w.toNat / 2 ^ 16 % 256 := by
  rw [rField, BitVec.extractLsb'_toNat, Nat.shiftRight_eq_div_pow]

theorem immField_toNat : (immField w).toNat = w.toNat % 2 ^ 16 := by
  rw [immField, BitVec.extractLsb'_toNat, Nat.shiftRight_zero]

theorem packFields_toNat :
    (packFields op z r imm).toNat = op.toNat * 2 ^ 26 + z.toNat * 2 ^ 24 + r.toNat * 2 ^ 16 + imm.toNat := by
  rw [packFields, BitVec.toNat_append, BitVec.toNat_append, BitVec.toNat_append,
    ← Nat.shiftLeft_add_eq_or_of_lt z.isLt, ← Nat.shiftLeft_add_eq_or_of_lt r.isLt,
    ← Nat.shiftLeft_add_eq_or_of_lt imm.isLt]
  simp only [Nat.shiftLeft_eq]
  omega

@[simp] theorem opField_packFields : opField (packFields op z r imm) = op := by
  apply BitVec.eq_of_toNat_eq
  rw [opField_toNat, packFields_toNat]
  omega

@[simp] theorem zField_packFields : zField (packFields op z r imm) = z := by
  apply BitVec.eq_of_toNat_eq
  rw [zField_toNat, packFields_toNat]
  omega

@[simp] theorem rField_packFields : rField (packFields op z r imm) = r := by
  apply BitVec.eq_of_toNat_eq
  rw [rField_toNat, packFields_toNat]
  omega

@[simp] theorem immField_packFields : immField (packFields op z r imm) = imm := by
  apply BitVec.eq_of_toNat_eq
  rw [immField_toNat, packFields_toNat]
  omega

/-- A uop is its four fields (R42). -/
@[simp] theorem packFields_fields : packFields (opField w) (zField w) (rField w) (immField w) = w := by
  have := w.isLt
  apply BitVec.eq_of_toNat_eq
  rw [packFields_toNat, opField_toNat, zField_toNat, rField_toNat, immField_toNat]
  omega

end

theorem packFields_inj {o p : BitVec 6} {z y : BitVec 2} {r q : BitVec 8} {m n : BitVec 16} :
    packFields o z r m = packFields p y q n ↔ o = p ∧ z = y ∧ r = q ∧ m = n := by
  constructor
  · intro h
    exact ⟨by simpa using congrArg opField h, by simpa using congrArg zField h,
      by simpa using congrArg rField h, by simpa using congrArg immField h⟩
  · rintro ⟨rfl, rfl, rfl, rfl⟩
    rfl

/-! ### rows of the opcode map -/

/-- The row of the opcode map that a micro-operation belongs to (R46). -/
def Instr.row : Instr → OpRow
  | .regRead _  => .fmtR .regRead
  | .regWrite _ => .fmtR .regWrite
  | .seti _     => .fmtI .seti
  | .sethi _    => .fmtI .sethi
  | i           => .fmtZ i

/-- The micro-operation of a row with zeros in its fields. -/
def OpRow.zeroed : OpRow → Instr
  | .fmtZ i  => i
  | .fmtR mk => mk 0
  | .fmtI mk => mk 0

/-- The format has a register operand (R43). -/
def OpRow.usesR : OpRow → Bool
  | .fmtR _ => true
  | .fmtZ _ | .fmtI _ => false

/-- The format has an immediate (R43). -/
def OpRow.usesImm : OpRow → Bool
  | .fmtI _ => true
  | .fmtZ _ | .fmtR _ => false

theorem opRow_opcode (i : Instr) : opRow i.opcode = some i.row := by
  cases i <;> rfl

/-- Every row of the opcode map is the row of a micro-operation with that `op` value. -/
theorem exists_of_opRow {op : BitVec 6} {row : OpRow} (h : opRow op = some row) :
    ∃ i : Instr, i.opcode = op ∧ i.row = row := by
  refine ⟨row.zeroed, ?_⟩
  unfold opRow at h
  split at h <;> cases h <;> exact ⟨rfl, rfl⟩

/-- A check that refuses what does not pass it. -/
theorem ite_error_eq_ok_iff {ε α : Type} {p : Prop} [Decidable p] {x : Except ε α} {e : ε} {a : α} :
    (if p then x else .error e) = .ok a ↔ p ∧ x = .ok a := by
  split <;> simp [*]

section
variable {r : BitVec 8} {imm : BitVec 16} {i j : Instr}

@[simp] theorem OpRow.fill_fmtZ_iff : (OpRow.fmtZ i).fill r imm = .ok j ↔ (r = 0 ∧ imm = 0) ∧ i = j := by
  simp only [OpRow.fill, ite_error_eq_ok_iff, Except.ok.injEq]

@[simp] theorem OpRow.fill_fmtR_iff {mk : Nat → Instr} :
    (OpRow.fmtR mk).fill r imm = .ok j ↔ imm = 0 ∧ mk r.toNat = j := by
  simp only [OpRow.fill, ite_error_eq_ok_iff, Except.ok.injEq]

@[simp] theorem OpRow.fill_fmtI_iff {mk : BitVec 16 → Instr} :
    (OpRow.fmtI mk).fill r imm = .ok j ↔ r = 0 ∧ mk imm = j := by
  simp only [OpRow.fill, ite_error_eq_ok_iff, Except.ok.injEq]

/-- A row takes the fields whose unused ones are 0 (R47 (c)). -/
theorem OpRow.exists_fill_iff {row : OpRow} :
    (∃ j, row.fill r imm = .ok j) ↔ (row.usesR = false → r = 0) ∧ (row.usesImm = false → imm = 0) := by
  cases row <;> simp [OpRow.usesR, OpRow.usesImm]

/-- A micro-operation fills its row from its own operands. -/
theorem Instr.row_fill_operands (h : i.wellFormed = true) : i.row.fill i.rOperand i.immOperand = .ok i := by
  cases i with
  | regRead n | regWrite n =>
    have hn : n < 256 := by simpa [Instr.wellFormed] using h
    simp [Instr.row, Instr.rOperand, Instr.immOperand, Nat.mod_eq_of_lt hn]
  | seti | sethi => simp [Instr.row, Instr.rOperand, Instr.immOperand]
  | _ => rfl

/-- What a row is filled to is well formed, has the row's `op` value and the fields as its operands. -/
theorem Instr.of_row_fill (h : i.row.fill r imm = .ok j) :
    j.wellFormed = true ∧ j.opcode = i.opcode ∧ j.rOperand = r ∧ j.immOperand = imm := by
  cases i with
  | regRead | regWrite =>
    obtain ⟨rfl, rfl⟩ := OpRow.fill_fmtR_iff.mp h
    exact ⟨decide_eq_true r.isLt, rfl, by simp [Instr.rOperand], rfl⟩
  | seti | sethi =>
    obtain ⟨rfl, rfl⟩ := OpRow.fill_fmtI_iff.mp h
    exact ⟨rfl, rfl, rfl, rfl⟩
  | _ =>
    obtain ⟨⟨rfl, rfl⟩, rfl⟩ := OpRow.fill_fmtZ_iff.mp h
    exact ⟨rfl, rfl, rfl, rfl⟩

end

/-! ### decoding -/

/-- The decoder's three checks (R46 to R48). -/
theorem decode_eq_ok_iff {w : Word} {j : Instr} :
    decode w = .ok j ↔
      zField w = 0 ∧ ∃ row, opRow (opField w) = some row ∧ row.fill (rField w) (immField w) = .ok j := by
  cases h : opRow (opField w) with
  | none => simp [decode, h]
  | some row => simp [decode, h, ite_error_eq_ok_iff]

/-- Settles O1: the uop has the micro-operation's row in its `op` field and its operands in the others. -/
theorem decodeOfEncode : Obligations.DecodeOfEncode := by
  intro i hi
  rw [decode_eq_ok_iff, encode]
  simp [opRow_opcode, i.row_fill_operands hi]

/-- Settles O2: the four fields that the decoder read are those of the encoding. -/
theorem encodeOfDecode : Obligations.EncodeOfDecode := by
  intro w j h
  obtain ⟨hz, row, hrow, hfill⟩ := decode_eq_ok_iff.mp h
  obtain ⟨i, hop, rfl⟩ := exists_of_opRow hrow
  obtain ⟨hwf, hopcode, hr, himm⟩ := Instr.of_row_fill hfill
  refine ⟨hwf, ?_⟩
  rw [encode, hopcode, hop, hr, himm, ← hz, packFields_fields]

/-- Settles O5: each word is read by the decoder. -/
theorem specWordsDecode : Obligations.SpecWordsDecode := by
  unfold Obligations.SpecWordsDecode
  decide

/-- A uop decodes when its row is in the table and every field that is not used is 0 (R47). -/
theorem exists_decode_iff {w : Word} :
    (∃ j, decode w = .ok j) ↔ zField w = 0 ∧ ∃ row, opRow (opField w) = some row ∧
      (row.usesR = false → rField w = 0) ∧ (row.usesImm = false → immField w = 0) := by
  simp only [decode_eq_ok_iff, ← OpRow.exists_fill_iff]
  tauto

/-! ### the masks of R43 -/

/-- The part of a mask over one field: its bits are taken unless the format uses the field. -/
def fieldMask (n : Nat) (used : Bool) : BitVec n := bif used then 0 else .allOnes n

theorem and_fieldMask_eq_zero_iff {n : Nat} {used : Bool} {x : BitVec n} :
    x &&& fieldMask n used = 0 ↔ (used = false → x = 0) := by
  cases used <;> simp [fieldMask]

theorem Instr.mask_eq (i : Instr) :
    i.mask = packFields (.allOnes 6) (.allOnes 2) (fieldMask 8 i.row.usesR) (fieldMask 16 i.row.usesImm) := by
  cases i with
  | regRead | regWrite =>
    change 0xFF00FFFF#32 = packFields (.allOnes 6) (.allOnes 2) (fieldMask 8 true) (fieldMask 16 false)
    decide
  | seti | sethi =>
    change 0xFFFF0000#32 = packFields (.allOnes 6) (.allOnes 2) (fieldMask 8 false) (fieldMask 16 true)
    decide
  | _ => rfl

theorem Instr.pattern_eq (i : Instr) : i.pattern = packFields i.opcode 0 0 0 := by
  have : ∀ op : BitVec 6, op.setWidth 32 <<< 26 = packFields op 0 0 0 := by decide
  exact this i.opcode

/-- The masked bits are the match when the `op` field is the row's and every field that is not used is 0. -/
theorem and_mask_eq_pattern_iff {w : Word} {i : Instr} :
    w &&& i.mask = i.pattern ↔ opField w = i.opcode ∧ zField w = 0 ∧
      (i.row.usesR = false → rField w = 0) ∧ (i.row.usesImm = false → immField w = 0) := by
  conv_lhs => rw [← packFields_fields w]
  rw [i.mask_eq, i.pattern_eq, packFields_and, packFields_inj, BitVec.and_allOnes, BitVec.and_allOnes,
    and_fieldMask_eq_zero_iff, and_fieldMask_eq_zero_iff]

theorem decode_opcode {w : Word} {j : Instr} (h : decode w = .ok j) : opField w = j.opcode := by
  obtain ⟨-, hj⟩ := encodeOfDecode w j h
  rw [← hj, encode, opField_packFields]

/-- Settles O3: on both sides the `op` field is that of `i`, and then its row decides. -/
theorem uopSelectsItsMaskedRow : Obligations.UopSelectsItsMaskedRow := by
  intro w i
  rw [and_mask_eq_pattern_iff]
  constructor
  · rintro ⟨j, hd, hj⟩
    have hop : opField w = i.opcode := (decode_opcode hd).trans hj
    obtain ⟨hz, row, hrow, hused⟩ := exists_decode_iff.mp ⟨j, hd⟩
    rw [hop, opRow_opcode] at hrow
    cases hrow
    exact ⟨hop, hz, hused⟩
  · rintro ⟨hop, hz, hused⟩
    obtain ⟨j, hd⟩ := exists_decode_iff.mpr ⟨hz, i.row, hop ▸ opRow_opcode i, hused⟩
    exact ⟨j, hd, (decode_opcode hd).symm.trans hop⟩

end Sys2Proof

namespace Sys2Proof.Machine

/-! ### illegal uops -/

/-- The values of `op` that R47 (a) lists. -/
def unassignedOp (op : Nat) : Bool :=
  [0x00, 0x0E, 0x0F, 0x16, 0x17, 0x1E, 0x1F].contains op || (decide (0x22 ≤ op) && decide (op ≤ 0x3D))

theorem unassignedOp_eq (op : BitVec 6) : unassignedOp op.toNat = (opRow op).isNone := by
  revert op
  decide

/-- The rows with a register operand are the two that R47 (c) excepts. -/
theorem usesR_of_opRow {op : BitVec 6} {row : OpRow} (h : opRow op = some row) :
    row.usesR = [0x0A, 0x0B].contains op.toNat := by
  have : ∀ op, (opRow op).all fun row => row.usesR == [0x0A, 0x0B].contains op.toNat := by decide
  simpa [h] using this op

theorem usesImm_of_opRow {op : BitVec 6} {row : OpRow} (h : opRow op = some row) :
    row.usesImm = [0x0C, 0x0D].contains op.toNat := by
  have : ∀ op, (opRow op).all fun row => row.usesImm == [0x0C, 0x0D].contains op.toNat := by decide
  simpa [h] using this op

theorem illegalUop_eq_false_iff {w : Word} :
    illegalUop w = false ↔ unassignedOp (opField w).toNat = false ∧ zField w = 0 ∧
      ([0x0A, 0x0B].contains (opField w).toNat = false → rField w = 0) ∧
      ([0x0C, 0x0D].contains (opField w).toNat = false → immField w = 0) := by
  have hzero {n : Nat} (x : BitVec n) : x = 0 ↔ x.toNat = 0 := BitVec.toNat_eq
  simp only [illegalUop, unassignedOp, hzero, opField_toNat, zField_toNat, rField_toNat, immField_toNat,
    ← Bool.not_eq_true, Bool.or_eq_true, Bool.and_eq_true, Bool.not_eq_true', decide_eq_true_eq]
  tauto

/-- Settles O4. -/
theorem illegalUopsRaiseIllegalMicroOp : Obligations.IllegalUopsRaiseIllegalMicroOp := by
  have hlegal (w : Word) : illegalUop w = false ↔ ∃ i, decode w = .ok i := by
    rw [illegalUop_eq_false_iff, exists_decode_iff, unassignedOp_eq]
    cases h : opRow (opField w) with
    | none => simp
    | some row => simp [usesR_of_opRow h, usesImm_of_opRow h]
  refine ⟨fun s hr hs hi => ?_, hlegal⟩
  cases hd : decode s.inputs.uop with
  | ok i => simp [(hlegal s.inputs.uop).mpr ⟨i, hd⟩] at hi
  | error e => rw [blockStep_running hr hs, runningStep_illegal hd]; rfl

/-! ### the tokens of a line -/

/-- A character that a token other than the comma may hold: no separator and no start of a comment (R49). -/
def tokenChar (c : Char) : Bool := c ∉ [' ', '\t', ',', ';']

/-- A token of such characters. -/
structure IsToken (m : List Char) : Prop where
  ne_nil : m ≠ []
  chars  : ∀ c ∈ m, tokenChar c = true

section
variable {m o : List Char}

theorem tokenChar_iff {c : Char} : tokenChar c = true ↔ c ≠ ' ' ∧ c ≠ '\t' ∧ c ≠ ',' ∧ c ≠ ';' := by
  simp [tokenChar]

theorem tokensFrom_append (h : ∀ c ∈ m, tokenChar c = true) (cs cur : List Char) :
    tokensFrom (m ++ cs) cur = tokensFrom cs (m.reverse ++ cur) := by
  induction m generalizing cur with
  | nil => rfl
  | cons c m ih =>
    obtain ⟨hc, hm⟩ := List.forall_mem_cons.mp h
    obtain ⟨h1, h2, h3, -⟩ := tokenChar_iff.mp hc
    simp [tokensFrom, h1, h2, h3, ih hm]

theorem closeToken_reverse (h : m ≠ []) (rest : List (List Char)) : closeToken m.reverse rest = m :: rest := by
  have h' : m.reverse ≠ [] := by simpa using h
  rw [closeToken.eq_2 _ _ h', List.reverse_reverse]

theorem tokensFrom_token (h : IsToken m) : tokensFrom m [] = [m] := by
  calc tokensFrom m []
    _ = tokensFrom [] m.reverse := by simpa using tokensFrom_append h.chars [] []
    _ = [m] := closeToken_reverse h.ne_nil []

theorem tokensFrom_token_blank (h : IsToken m) (cs : List Char) :
    tokensFrom (m ++ ' ' :: cs) [] = m :: tokensFrom cs [] := by
  rw [tokensFrom_append h.chars, List.append_nil]
  exact closeToken_reverse h.ne_nil _

theorem lineTokens_of_noComment (h : ∀ c ∈ m, c ≠ ';') : lineTokens m = tokensFrom m [] := by
  rw [lineTokens, List.takeWhile_eq_self_iff.mpr (by simpa using h)]

theorem IsToken.noComment (h : IsToken m) : ∀ c ∈ m, c ≠ ';' := by
  intro c hc
  obtain ⟨-, -, -, hne⟩ := tokenChar_iff.mp (h.chars c hc)
  exact hne

/-- A line that is one token (R49). -/
theorem lineTokens_plain (h : IsToken m) : lineTokens m = [m] := by
  rw [lineTokens_of_noComment h.noComment, tokensFrom_token h]

/-- A line of two tokens with a blank between them (R49). -/
theorem lineTokens_operand (hm : IsToken m) (ho : IsToken o) : lineTokens (m ++ ' ' :: o) = [m, o] := by
  have hline : ∀ c ∈ m ++ ' ' :: o, c ≠ ';' := by
    simpa [or_imp, forall_and] using ⟨hm.noComment, ho.noComment⟩
  rw [lineTokens_of_noComment hline, tokensFrom_token_blank hm, tokensFrom_token ho]

end

/-- A mnemonic is a token. -/
theorem isToken_mnemonicText (i : Instr) : IsToken (mnemonicText i).toList := by
  have h : (mnemonicText i).toList ≠ [] ∧ (mnemonicText i).toList.all tokenChar = true := by
    cases i <;> simp only [mnemonicText] <;> decide
  exact ⟨h.1, List.all_eq_true.mp h.2⟩

/-! ### digits and numbers -/

theorem hexDigit_digitChar {n : Nat} (h : n < 16) : hexDigit (digitChar n) = some n := by
  revert n
  decide

theorem tokenChar_digitChar {n : Nat} (h : n < 16) : tokenChar (digitChar n) = true := by
  revert n
  decide

/-- A digit of the base goes on with the number read so far. -/
theorem digitsFrom_digitChar {base d : Nat} (hb : base ≤ 16) (hd : d < base) (cs : List Char) (n : Nat) :
    digitsFrom base (digitChar d :: cs) n = digitsFrom base cs (n * base + d) := by
  simp [digitsFrom, hexDigit_digitChar (Nat.lt_of_lt_of_le hd hb), hd]

theorem decimalNumber_decimalText {n : Nat} (h : n < 1000) : decimalNumber (decimalText n) = some n := by
  unfold decimalText
  split_ifs with h1 h2 <;> rw [decimalNumber.eq_2 _ (by simp)]
  · rw [digitsFrom_digitChar (by decide) h1]
    simp [digitsFrom]
  · rw [digitsFrom_digitChar (by decide) (by omega), digitsFrom_digitChar (by decide) (by omega), digitsFrom]
    congr 1
    omega
  · rw [digitsFrom_digitChar (by decide) (by omega), digitsFrom_digitChar (by decide) (by omega),
      digitsFrom_digitChar (by decide) (by omega), digitsFrom]
    congr 1
    omega

theorem isToken_registerText {n : Nat} (h : n < 1000) : IsToken ('r' :: decimalText n) := by
  refine ⟨by simp, List.forall_mem_cons.mpr ⟨by decide, ?_⟩⟩
  unfold decimalText
  split_ifs with h1 h2 <;> simp only [List.forall_mem_cons, List.not_mem_nil, false_imp_iff, implies_true, and_true]
  · exact tokenChar_digitChar (by omega)
  · exact ⟨tokenChar_digitChar (by omega), tokenChar_digitChar (by omega)⟩
  · exact ⟨tokenChar_digitChar (by omega), tokenChar_digitChar (by omega), tokenChar_digitChar (by omega)⟩

/-- The register operand that is written reads back (R44, R49). -/
theorem registerOperand_decimalText {n : Nat} (h : n < 256) : registerOperand ('r' :: decimalText n) = some n := by
  have hn : n ≤ 255 := by omega
  simp [registerOperand, decimalNumber_decimalText (by omega : n < 1000), numberIn, hn]

theorem unsignedNumber_hexText (v : BitVec 16) : unsignedNumber (hexText v) = some v.toNat := by
  have := v.isLt
  change digitsFrom 16 [_, _, _, _] 0 = _
  rw [digitsFrom_digitChar (by decide) (by omega), digitsFrom_digitChar (by decide) (by omega),
    digitsFrom_digitChar (by decide) (by omega), digitsFrom_digitChar (by decide) (by omega), digitsFrom]
  congr 1
  omega

theorem isToken_hexText (v : BitVec 16) : IsToken (hexText v) := by
  have := v.isLt
  refine ⟨by simp [hexText], ?_⟩
  simp only [hexText, List.forall_mem_cons, List.not_mem_nil, false_imp_iff, implies_true, and_true]
  exact ⟨by decide, by decide, tokenChar_digitChar (by omega), tokenChar_digitChar (by omega),
    tokenChar_digitChar (by omega), tokenChar_digitChar (by omega)⟩

/-- The immediate that is written reads back (R45, R49). -/
theorem unsignedImmediate_hexText (v : BitVec 16) : unsignedImmediate (hexText v) = some v := by
  have hv : v.toNat ≤ 0xFFFF := Nat.le_of_lt_succ v.isLt
  simp [unsignedImmediate, unsignedNumber_hexText, numberIn, hv]

theorem signedImmediate_hexText (v : BitVec 16) : signedImmediate (hexText v) = some v :=
  unsignedImmediate_hexText v

/-! ### lines -/

/-- A mnemonic alone on its line. -/
theorem assembleLine_plain {m : List Char} (h : IsToken m) : assembleLine m = plainLine m := by
  rw [assembleLine, lineTokens_plain h]

/-- A mnemonic and its operand. -/
theorem assembleLine_operand {m o : List Char} (hm : IsToken m) (ho : IsToken o) :
    assembleLine (m ++ ' ' :: o) = operandLine m o := by
  rw [assembleLine, lineTokens_operand hm ho]

theorem plainLine_mnemonicText : ∀ i ∈ formatZ, plainLine (mnemonicText i).toList = some [i] := by
  decide

theorem assembleLine_lineText_of_mem_formatZ {i : Instr} (h : i ∈ formatZ) (ht : operandText i = []) :
    assembleLine (lineText i) = some [i] := by
  rw [lineText, ht, List.append_nil, assembleLine_plain (isToken_mnemonicText i), plainLine_mnemonicText i h]

section
variable (o : List Char)

theorem operandLine_regRead :
    operandLine "REG_READ".toList o = (registerOperand o).map fun i => [.regRead i] := by
  rw [operandLine, if_pos rfl]

theorem operandLine_regWrite :
    operandLine "REG_WRITE".toList o = (registerOperand o).map fun i => [.regWrite i] := by
  rw [operandLine, if_neg (by decide), if_pos rfl]

theorem operandLine_seti : operandLine "SETI".toList o = (signedImmediate o).map fun v => [.seti v] := by
  rw [operandLine, if_neg (by decide), if_neg (by decide), if_pos rfl]

theorem operandLine_sethi : operandLine "SETHI".toList o = (unsignedImmediate o).map fun v => [.sethi v] := by
  rw [operandLine, if_neg (by decide), if_neg (by decide), if_neg (by decide), if_pos rfl]

end

/-- Settles O6: the line's tokens are the mnemonic and, in formats R and I, the operand, and each reads back. -/
theorem assembleOfLineText : Obligations.AssembleOfLineText := by
  intro i hi
  have hm := isToken_mnemonicText i
  cases i with
  | regRead n =>
    have hn : n < 256 := by simpa [Instr.wellFormed] using hi
    refine (assembleLine_operand hm (isToken_registerText (by omega))).trans ((operandLine_regRead _).trans ?_)
    rw [registerOperand_decimalText hn, Option.map_some]
  | regWrite n =>
    have hn : n < 256 := by simpa [Instr.wellFormed] using hi
    refine (assembleLine_operand hm (isToken_registerText (by omega))).trans ((operandLine_regWrite _).trans ?_)
    rw [registerOperand_decimalText hn, Option.map_some]
  | seti v =>
    refine (assembleLine_operand hm (isToken_hexText v)).trans ((operandLine_seti _).trans ?_)
    rw [signedImmediate_hexText, Option.map_some]
  | sethi v =>
    refine (assembleLine_operand hm (isToken_hexText v)).trans ((operandLine_sethi _).trans ?_)
    rw [unsignedImmediate_hexText, Option.map_some]
  | _ => exact assembleLine_lineText_of_mem_formatZ (by decide) rfl

/-! ### sequences of micro-operations -/

theorem State.feed_advance (s : State) (u : Word) (us : List Word) : (s.feed (u :: us)).advance = s.feed us := rfl

theorem State.feed_presents (s : State) (u : Word) (us : List Word) : (s.feed (u :: us)).inputs.uop = u := rfl

theorem performAll_nil (s : State) : performAll [] s = .next { s with inputs := .idle, later := [] } := rfl

/-- A RUNNING block performs the first micro-operation that the sequencer presents, and then the others (R91, log 1).
The micro-operation turns `s` into `t` under the schedule that presents all of them. -/
theorem performAll_cons {s t : State} {i : Instr} {is : List Instr} (hs : s.runState = .running)
    (hi : i.wellFormed = true)
    (h : exec i (s.feed (encode i :: is.map encode)) = .next (t.feed (encode i :: is.map encode))) :
    performAll (i :: is) s = performAll is t := by
  have hd : decode (s.feed (encode i :: is.map encode)).inputs.uop = .ok i := by
    rw [State.feed_presents, decodeOfEncode i hi]
  have hblock := (blockStep_running (s := s.feed (encode i :: is.map encode)) rfl hs).trans
    ((runningStep_exec hd).trans h)
  exact runSteps_succ is.length (step_of_blockStep hblock)

/-- REG_WRITE of a hard-wired register 0 only notifies (R15, R84). -/
theorem exec_regWrite_hardwired {s : State} (hk : 0 < s.k) (hw : s.params.r0Hardwired = true) :
    exec (.regWrite 0) s = .next s.notify := by
  change execRegWrite 0 s = _
  obtain ⟨-, -, h⟩ | ⟨hz, -⟩ := writeReg_cases s 0 s.bus hk
  · simp [execRegWrite, h]
  · exact absurd ⟨hw, rfl⟩ hz

/-- What REG_WRITE of a register below `K` does: only `x` and the counter change, and `x` holds the bus at that index
unless the register is hard-wired (R15, R84). -/
theorem exec_regWrite_inRange {s : State} {d : Nat} (hd : d < s.k) :
    ∃ x, exec (.regWrite d) s = .next { s with x := x }.notify ∧
      (if s.params.r0Hardwired = true ∧ d = 0 then x = s.x
        else x.length = s.k ∧ x[d]? = some (.word s.bus) ∧ ∀ j, j ≠ d → x[j]? = s.x[j]?) := by
  by_cases hz : s.params.r0Hardwired = true ∧ d = 0
  · obtain ⟨hw, rfl⟩ := hz
    exact ⟨s.x, exec_regWrite_hardwired hd hw, by simp [hw]⟩
  · refine ⟨_, exec_regWrite_of_storage hd hz, ?_⟩
    rw [if_neg hz]
    exact ⟨List.length_set, List.getElem?_set_self hd, fun j hj => List.getElem?_set_ne (Ne.symm hj)⟩

/-- A register that reads as `v` shows `v`: zero if it is hard-wired, else what its cell holds (R13, R14). -/
theorem State.regCell_eq_word {s : State} {i : Nat} {v : Word}
    (h : if s.params.r0Hardwired = true ∧ i = 0 then v = 0x00000000#32 else s.x[i]? = some (.word v)) :
    s.regCell i = .word v := by
  split_ifs at h with hz
  · obtain ⟨hw, rfl⟩ := hz
    rw [State.regCell_hardwired hw, h]
  · exact State.regCell_of_storage hz h

/-- The sum of R53 as a number. -/
theorem wordAdd_toNat (a b : Word) : (wordAdd a b).toNat = (a.toNat + b.toNat) % 2 ^ 32 := by
  rw [wordAdd, word, ← Int.natCast_add, BitVec.ofInt_natCast, BitVec.toNat_ofNat]

/-- BOUNDARY in a step without a request changes nothing (R93). -/
theorem exec_boundary_of_noRequest {s : State} (hstop : s.inputs.stopReq = false) (hpause : s.inputs.pauseReq = false) :
    exec .boundary s = .next s := by
  simp [exec_boundary, State.boundaryRunState, hstop, hpause]

theorem performAll_regRead {s : State} {i : Nat} {v : Word} (is : List Instr) (hs : s.runState = .running)
    (hi : i < s.k) (hi' : i < 256) (hv : s.regCell i = .word v) :
    performAll (.regRead i :: is) s = performAll is { s with bus := v, notifyCount := s.notifyCount + 2 } :=
  performAll_cons hs (by simpa [Instr.wellFormed] using hi') (exec_regRead_of_word hi hv)

theorem performAll_regWrite {s : State} {d : Nat} (is : List Instr) (hs : s.runState = .running)
    (hd : d < s.k) (hd' : d < 256) :
    ∃ x, performAll (.regWrite d :: is) s = performAll is { s with x := x, notifyCount := s.notifyCount + 1 } ∧
      (if s.params.r0Hardwired = true ∧ d = 0 then x = s.x
        else x.length = s.k ∧ x[d]? = some (.word s.bus) ∧ ∀ j, j ≠ d → x[j]? = s.x[j]?) := by
  obtain ⟨x, hexec, hx⟩ := exec_regWrite_inRange
    (s := s.feed (encode (.regWrite d) :: is.map encode)) hd
  exact ⟨x, performAll_cons hs (by simpa [Instr.wellFormed] using hd') hexec, hx⟩

/-- MOVE: the read puts the Word on the bus and notifies twice, the write stores it and notifies once (R50). -/
theorem performAll_move {s : State} {d i : Nat} {v : Word} (hs : s.runState = .running) (hd : d < s.k) (hi : i < s.k)
    (hd' : d < 256) (hi' : i < 256) (hv : s.regCell i = .word v) :
    ∃ x, performAll (Pseudo.expand (.move d i)) s = .next { s with
        x := x, bus := v, notifyCount := s.notifyCount + 3, inputs := .idle, later := [] } ∧
      (if s.params.r0Hardwired = true ∧ d = 0 then x = s.x
        else x.length = s.k ∧ x[d]? = some (.word v) ∧ ∀ j, j ≠ d → x[j]? = s.x[j]?) := by
  have hread := performAll_regRead [.regWrite d] hs hi hi' hv
  obtain ⟨x, hwrite, hx⟩ := performAll_regWrite
    (s := { s with bus := v, notifyCount := s.notifyCount + 2 }) [] hs hd hd'
  exact ⟨x, hread.trans (hwrite.trans (performAll_nil _)), hx⟩

/-- NEXT: the pc advances by 4 with one notification, and the boundary takes no request (R50). -/
theorem performAll_next {s : State} (hs : s.runState = .running) :
    performAll (Pseudo.expand .next) s = .next { s with
      pc := wordAdd s.pc Config.pcStep, notifyCount := s.notifyCount + 1, inputs := .idle, later := [] } := by
  calc performAll [.pcInc, .boundary] s
    _ = performAll [.boundary] { s with pc := wordAdd s.pc Config.pcStep, notifyCount := s.notifyCount + 1 } :=
        performAll_cons hs rfl rfl
    _ = performAll [] { s with pc := wordAdd s.pc Config.pcStep, notifyCount := s.notifyCount + 1 } :=
        performAll_cons hs rfl (exec_boundary_of_noRequest rfl rfl)
    _ = _ := performAll_nil _

/-- Settles O36. -/
theorem moveAndNextHaveTheirEffect : Obligations.MoveAndNextHaveTheirEffect := by
  intro s hs
  refine ⟨fun d i v hd hi hd' hi' hv => ?_, wordAdd s.pc Config.pcStep, wordAdd_toNat _ _, performAll_next hs⟩
  exact performAll_move hs hd hi hd' hi' (State.regCell_eq_word hv)

end Sys2Proof.Machine

/-! PROOFS of the family 40_alu.md: what the ALU's micro-operations leave in the slot, bit for bit and as numbers (O19,
O20, O21), the laws of the Word functions (O22) and subtraction from complement and addition (O23). -/

namespace Sys2Proof.Machine

/-! ### the Word functions as operations on bit vectors -/

theorem word_natCast (n : Nat) : word n = BitVec.ofNat 32 n := BitVec.ofInt_natCast 32 n

theorem wordAdd_eq_add (a b : Word) : wordAdd a b = a + b :=
  BitVec.eq_of_toNat_eq ((wordAdd_toNat a b).trans (BitVec.toNat_add a b).symm)

/-- The Boolean law holds in each position, by its truth table (R57). -/
theorem xor_eq_or_and_not_and (a b : Word) : a ^^^ b = (a ||| b) &&& ~~~(a &&& b) := by
  ext k hk
  simp only [BitVec.getElem_xor, BitVec.getElem_and, BitVec.getElem_or, BitVec.getElem_not]
  cases a[k] <;> cases b[k] <;> rfl

theorem word_mul_two_pow (v : Word) (n : Nat) : word (v.toNat * 2 ^ n) = v <<< n := by
  rw [← Nat.cast_ofNat (R := Int), ← Nat.cast_pow, ← Nat.cast_mul, word_natCast, ← Nat.shiftLeft_eq]
  exact BitVec.eq_of_toNat_eq (by rw [BitVec.toNat_ofNat, BitVec.toNat_shiftLeft])

theorem word_div_two_pow (v : Word) (n : Nat) : word (v.toNat / 2 ^ n) = v >>> n := by
  rw [← Nat.cast_ofNat (R := Int), ← Nat.cast_pow, ← Int.natCast_div, word_natCast, ← Nat.shiftRight_eq_div_pow,
    ← BitVec.toNat_ushiftRight, BitVec.ofNat_toNat, BitVec.setWidth_eq]

/-- A non-negative amount multiplies by a power of two, which is the left shift (R56). -/
theorem wordShift_of_nonneg (v : Word) {amt : Word} (h : 0 ≤ amt.toInt) :
    wordShift v amt = v <<< amt.toInt.toNat := by
  by_cases hbig : 32 ≤ amt.toInt
  · rw [BitVec.shiftLeft_eq_zero (by omega)]
    simp [wordShift, h, hbig]
  · simp only [wordShift, h, hbig, if_true, if_false, word_mul_two_pow]

/-- A negative amount divides by a power of two, which is the right shift with zero fill (R56). -/
theorem wordShift_of_neg (v : Word) {amt : Word} (h : amt.toInt < 0) :
    wordShift v amt = v >>> (-amt.toInt).toNat := by
  have hneg : ¬0 ≤ amt.toInt := Int.not_le.mpr h
  by_cases hbig : 32 ≤ -amt.toInt
  · rw [BitVec.ushiftRight_eq_zero (by omega)]
    simp [wordShift, hneg, hbig]
  · simp only [wordShift, hneg, hbig, if_false, word_div_two_pow]

/-- Bit `k` of a shifted Word is bit `k - amt` of the Word, where there is one (R56). -/
theorem getLsbD_wordShift (v amt : Word) {k : Nat} (hk : k < 32) :
    (wordShift v amt).getLsbD k =
      (decide (0 ≤ (k : Int) - amt.toInt) && decide ((k : Int) - amt.toInt < 32) &&
        v.getLsbD ((k : Int) - amt.toInt).toNat) := by
  by_cases h : 0 ≤ amt.toInt
  · have hfrom : ((k : Int) - amt.toInt).toNat = k - amt.toInt.toNat := by omega
    have hlow : ¬k < amt.toInt.toNat ↔ 0 ≤ (k : Int) - amt.toInt := by omega
    have hhigh : (k : Int) - amt.toInt < 32 := by omega
    rw [wordShift_of_nonneg v h, BitVec.getLsbD_shiftLeft, hfrom, ← decide_not, decide_eq_decide.mpr hlow,
      decide_eq_true hk, decide_eq_true hhigh, Bool.true_and, Bool.and_true]
  · have hfrom : ((k : Int) - amt.toInt).toNat = (-amt.toInt).toNat + k := by omega
    have hlow : amt.toInt ≤ (k : Int) := by omega
    rw [wordShift_of_neg v (Int.not_le.mp h), BitVec.getLsbD_ushiftRight, hfrom]
    by_cases hhigh : (k : Int) - amt.toInt < 32
    · simp [hlow, hhigh]
    · simp [hhigh, BitVec.getLsbD_of_ge v ((-amt.toInt).toNat + k) (by omega)]

theorem wordShift_zero (a : Word) : wordShift a 0x00000000#32 = a := by
  rw [wordShift_of_nonneg a (by decide)]
  exact BitVec.shiftLeft_zero a

/-- No bit survives a shift by 32 places or more (R56). -/
theorem wordShift_eq_zero (a : Word) {amt : Word} (h : 32 ≤ amt.toInt ∨ amt.toInt ≤ -32) :
    wordShift a amt = 0x00000000#32 := by
  obtain hleft | hright := h
  · rw [wordShift_of_nonneg a (by omega), BitVec.shiftLeft_eq_zero (by omega)]
  · rw [wordShift_of_neg a (by omega), BitVec.ushiftRight_eq_zero (by omega)]

/-- The complement plus 1 is the additive inverse (R57). -/
theorem wordAdd_wordNot_one (a : Word) : wordAdd (wordNot a) 0x00000001#32 = -a := by
  rw [wordAdd_eq_add, wordNot, BitVec.neg_eq_not_add]

/-- Settles O22. -/
theorem wordFunctionLaws : Obligations.WordFunctionLaws := by
  refine ⟨xor_eq_or_and_not_and, fun _ => BitVec.not_not, wordShift_zero, fun a _ => wordShift_eq_zero a, by decide,
    fun a b => ?comm, fun a b c => ?assoc, fun a => ?identity, fun a => ?inverse⟩
  case comm => simp only [wordAdd_eq_add, BitVec.add_comm]
  case assoc => simp only [wordAdd_eq_add, BitVec.add_assoc]
  case identity => rw [wordAdd_eq_add, BitVec.add_zero]
  case inverse => rw [wordAdd_wordNot_one, wordAdd_eq_add, BitVec.add_right_neg]

/-! ### what an ALU micro-operation does -/

/-- A micro-operation whose one operand cell is the ALU slot raises on an unwritten slot, by the second table of
R104. -/
theorem exec_of_alu_unwritten {s : State} {i : Instr} (h : s.alu = .unwritten) (hi : indexNamed i = none)
    (hc : cellsRead s i = [(s.alu, aluCell)]) : exec i s = .next (s.faultEntry .unwrittenRead aluCell) :=
  exec_of_expectedFault (expectedFault_unwritten hi (by rw [firstUnwritten, hc, h]; rfl))

theorem perform_aluBinary_word (f : Word → Word → Word) {s : State} {a : Word} (h : s.alu = .word a) :
    perform s (aluBinary f s) = .next { s with alu := .word (f a s.bus) }.notify := by
  simp [aluBinary, h]

theorem perform_aluUnary_word (f : Word → Word) {s : State} {a : Word} (h : s.alu = .word a) :
    perform s (aluUnary f s) = .next { s with alu := .word (f a) }.notify := by
  simp [aluUnary, h]

theorem exec_aluAdd_word {s : State} {a : Word} (h : s.alu = .word a) :
    exec .aluAdd s = .next { s with alu := .word (wordAdd a s.bus) }.notify :=
  perform_aluBinary_word wordAdd h

theorem exec_aluNot_word {s : State} {a : Word} (h : s.alu = .word a) :
    exec .aluNot s = .next { s with alu := .word (wordNot a) }.notify :=
  perform_aluUnary_word wordNot h

/-- Settles O20. -/
theorem aluShiftBitByBit : Obligations.AluShiftBitByBit := by
  refine ⟨decodeOfEncode .aluShift rfl, fun s h => exec_of_alu_unwritten h rfl rfl, fun s a h => ?_⟩
  exact ⟨wordShift a s.bus, perform_aluBinary_word wordShift h, fun k hk => getLsbD_wordShift a s.bus hk⟩

/-- Settles O19. -/
theorem aluBitwiseResults : Obligations.AluBitwiseResults := by
  refine ⟨⟨decodeOfEncode .aluXor rfl, decodeOfEncode .aluOr rfl, decodeOfEncode .aluAnd rfl,
    decodeOfEncode .aluNot rfl⟩, fun s i h hi => ?unwritten, fun s a h => ?written⟩
  case unwritten =>
    obtain ⟨hindex, hcells⟩ : indexNamed i = none ∧ cellsRead s i = [(s.alu, aluCell)] := by
      simp only [List.mem_cons, List.not_mem_nil, or_false] at hi
      obtain rfl | rfl | rfl | rfl := hi <;> exact ⟨rfl, rfl⟩
    exact exec_of_alu_unwritten h hindex hcells
  case written =>
    refine ⟨wordXor a s.bus, wordOr a s.bus, wordAnd a s.bus, wordNot a,
      ⟨perform_aluBinary_word wordXor h, perform_aluBinary_word wordOr h, perform_aluBinary_word wordAnd h,
        exec_aluNot_word h⟩, fun k hk => ?_⟩
    exact ⟨BitVec.getLsbD_xor, BitVec.getLsbD_or, BitVec.getLsbD_and, by simp [wordNot, hk]⟩

/-- Settles O21: the signed value of a Word is its unsigned value modulo 2^32, so one sum serves both readings. -/
theorem aluAddWraps : Obligations.AluAddWraps := by
  refine ⟨decodeOfEncode .aluAdd rfl, fun s h => exec_of_alu_unwritten h rfl rfl, fun s a h => ?_⟩
  refine ⟨wordAdd a s.bus, exec_aluAdd_word h, wordAdd_toNat a s.bus, ?_⟩
  rw [wordAdd_eq_add, BitVec.ofInt_add, BitVec.ofInt_toInt, BitVec.ofInt_toInt]

/-- Settles O23: complement and 1 make `-b`, and adding `a` gives `a - b`. -/
theorem notAddAddSubtracts : Obligations.NotAddAddSubtracts := by
  intro s m n a b hs
  refine ⟨_, exec_aluNot_word hs, fun hm hone => ⟨_, exec_aluAdd_word hm, fun hn ha => ?_⟩⟩
  have hsub : wordAdd (wordAdd (wordNot b) m.bus) n.bus = a - b := by
    rw [hone, ha, wordAdd_wordNot_one, wordAdd_eq_add, neg_add_eq_sub]
  rw [exec_aluAdd_word hn, hsub]
  rfl

end Sys2Proof.Machine

/-! PROOFS of the family 41_program_counter.md: what each micro-operation of the program counter does (O24 to O27), and
that nothing else but a reset changes the pc (O28). -/

namespace Sys2Proof.Machine

/-! ### what a micro-operation of the program counter does -/

theorem wordAdd_pcStep (w : Word) : wordAdd w Config.pcStep = w + 4 := wordAdd_eq_add w Config.pcStep

/-- What PC_ADD_OFFSET adds to the pc beyond the bus: the parameter OFFSET_PLUS_STEP (R67). -/
def State.offsetStep (s : State) : Word := if s.params.offsetPlusStep = true then 4 else 0

theorem State.offsetStep_toNat (s : State) :
    s.offsetStep.toNat = if s.params.offsetPlusStep = true then 4 else 0 :=
  apply_ite BitVec.toNat _ _ _

/-- PC_INC with its whole frame (R66). -/
theorem exec_pcInc (s : State) : exec .pcInc s = .next { s with pc := s.pc + 4 }.notify := by
  rw [← wordAdd_pcStep]
  rfl

/-- PC_ADD_OFFSET with its whole frame, on both code paths of OFFSET_PLUS_STEP (R67). -/
theorem exec_pcAddOffset (s : State) :
    exec .pcAddOffset s = .next { s with pc := s.pc + s.bus + s.offsetStep }.notify := by
  change execPcAddOffset s = _
  cases hp : s.params.offsetPlusStep with
  | true => simp [execPcAddOffset, State.offsetStep, hp, wordAdd_eq_add, Config.pcStep]
  | false => simp [execPcAddOffset, State.offsetStep, hp, wordAdd_eq_add]

/-- PC_TO_LSU with its whole frame: one notification for the bus and one for the address latch (R68). -/
theorem exec_pcToLsu (s : State) :
    exec .pcToLsu s = .next { { s with bus := s.pc }.notify with lsuAddr := .word s.pc }.notify := rfl

/-- PC_TO_IR with its whole frame: one notification for the bus and one for the ir (R70). -/
theorem exec_pcToIr (s : State) :
    exec .pcToIr s = .next { { s with bus := s.pc }.notify with ir := .word s.pc }.notify := rfl

/-- A jump from a written data latch, with its whole frame (R69). -/
theorem exec_lsuToPc_of_word {s : State} {v : Word} (h : s.lsuData = .word v) :
    exec .lsuToPc s = .next { { s with bus := v }.notify with pc := v }.notify := by
  change execLsuToPc s = _
  simp [execLsuToPc, h]

/-- A jump from a written ir, with its whole frame (R71). -/
theorem exec_irToPc_of_word {s : State} {v : Word} (h : s.ir = .word v) :
    exec .irToPc s = .next { { s with bus := v }.notify with pc := v }.notify := by
  change execIrToPc s = _
  simp [execIrToPc, h]

/-- A micro-operation that needs one cell, and that cell is unwritten, is fault entry with the cell's number, by the
second table of R104. -/
theorem exec_of_cell_unwritten {s : State} {i : Instr} {c : Cell} {n : Word} (hi : indexNamed i = none)
    (hc : cellsRead s i = [(c, n)]) (h : c = .unwritten) : exec i s = .next (s.faultEntry .unwrittenRead n) :=
  exec_of_expectedFault (expectedFault_unwritten hi (by rw [firstUnwritten, hc, h]; rfl))

/-! ### what a micro-operation leaves in the pc -/

/-- The table of R72 without its reset row: performed in `s`, the micro-operation writes this Word to the pc. -/
inductive State.WritesPc (s : State) : Instr → Word → Prop
  | pcInc : WritesPc s .pcInc (s.pc + 4)
  | pcAddOffset : WritesPc s .pcAddOffset (s.pc + s.bus + s.offsetStep)
  | sendPc : WritesPc s .sendPc s.bus
  | lsuToPc {v : Word} (h : s.lsuData = .word v) : WritesPc s .lsuToPc v
  | irToPc {v : Word} (h : s.ir = .word v) : WritesPc s .irToPc v

/-- Where the rule result `r` completes, the state it leaves has the property `P`. -/
def EnsuresIfOk (P : State → Prop) (r : RuleResult) : Prop := ∀ t, r = .ok t → P t

section
variable {s t : State} {P : State → Prop}

theorem EnsuresIfOk.ok (h : P t) : EnsuresIfOk P (.ok t) := by
  rintro u ⟨⟩
  exact h

/-- The reads and checks of a rule can raise; what they answered stands when its last part completes. -/
theorem EnsuresIfOk.bind {α : Type} {x : Except Raised α} {f : α → RuleResult}
    (h : ∀ a, x = .ok a → EnsuresIfOk P (f a)) : EnsuresIfOk P (x >>= f) := by
  cases x with
  | ok a => exact h a rfl
  | error e => rintro u ⟨⟩

/-- A rule performed has completed, or is fault entry in the state before it (R92, R110). -/
theorem EnsuresIfOk.perform {r : RuleResult} (hr : EnsuresIfOk P r) (h : Machine.perform s r = .next t) :
    P t ∨ ∃ code info, t = s.faultEntry code info := by
  obtain ⟨u, hu, hp⟩ | ⟨f, -, hp⟩ := perform_cases s r <;> rw [hp] at h <;> cases h
  · exact .inl (hr _ hu)
  · exact .inr ⟨_, _, rfl⟩

/-- A register write that does not raise writes `x` alone (R15). -/
theorem writeReg_frame {i : Nat} {w : Word} (h : writeReg s i w = .ok t) : t = { s with x := t.x } := by
  by_cases hi : s.k ≤ i
  · simp [writeReg_outOfRange s i w hi] at h
  · obtain ⟨-, -, h'⟩ | ⟨-, h'⟩ := writeReg_cases s i w (Nat.lt_of_not_le hi) <;> rw [h'] at h <;> cases h <;> rfl

/-- A memory write that does not raise writes `mem` alone (R26). -/
theorem memWrite_frame {a v : Word} (h : memWrite s a v = .ok t) : t = { s with mem := t.mem } := by
  obtain ⟨-, h'⟩ | ⟨-, -, h'⟩ | ⟨-, -, h'⟩ := memWrite_cases s a v <;> rw [h'] at h <;> cases h
  rfl

end

/-- The rule of every micro-operation leaves the pc alone, or writes what R72 tables for it. -/
theorem exec_ensuresPc (i : Instr) (s : State) :
    ∃ r, exec i s = perform s r ∧ EnsuresIfOk (fun t => t.pc = s.pc ∨ s.WritesPc i t.pc) r := by
  cases i with
  | pcInc => exact ⟨.ok _, exec_pcInc s, .ok (.inr .pcInc)⟩
  | pcAddOffset => exact ⟨.ok _, exec_pcAddOffset s, .ok (.inr .pcAddOffset)⟩
  | sendPc => exact ⟨.ok _, rfl, .ok (.inr .sendPc)⟩
  | lsuToPc => exact ⟨_, rfl, .bind fun _ h => .ok (.inr (.lsuToPc (val_eq_ok.mp h)))⟩
  | irToPc => exact ⟨_, rfl, .bind fun _ h => .ok (.inr (.irToPc (val_eq_ok.mp h)))⟩
  | sendAlu | sendLsu | sendLsuAddr | recvPc | sendIr | seti _ | sethi _ | pcToLsu | pcToIr | halt =>
    refine ⟨.ok _, rfl, ?_⟩
    exact .ok (.inl rfl)
  | recvAlu | recvLsu | recvIr | aluXor | aluOr | aluAnd | aluNot | aluShift | aluAdd | regRead _ =>
    exact ⟨_, rfl, .bind fun _ _ => .ok (.inl rfl)⟩
  | regWrite _ => exact ⟨_, rfl, .bind fun _ h => .ok (.inl (by rw [writeReg_frame h]; rfl))⟩
  | lsuLoad => exact ⟨_, rfl, .bind fun _ _ => .bind fun _ _ => .ok (.inl rfl)⟩
  | lsuStore =>
    exact ⟨_, rfl, .bind fun _ _ => .bind fun _ _ => .bind fun _ h => .ok (.inl (by rw [memWrite_frame h]; rfl))⟩
  | boundary => exact ⟨.ok _, exec_boundary s, .ok (.inl rfl)⟩

/-- Performed in `s`, fault entry included, it leaves the pc alone or writes what R72 tables for it (R110). -/
theorem exec_pc {s t : State} {i : Instr} (h : exec i s = .next t) : t.pc = s.pc ∨ s.WritesPc i t.pc := by
  obtain ⟨r, hexec, hr⟩ := exec_ensuresPc i s
  obtain ht | ⟨_, _, rfl⟩ := hr.perform (hexec ▸ h)
  · exact ht
  · exact .inl rfl

/-! ### the obligations -/

/-- Settles O28: of the events of a step only a reset and the completion of a micro-operation write the pc. -/
theorem pcChangesOnlyByItsMicroOperations : Obligations.PcChangesOnlyByItsMicroOperations := by
  intro s t h hne
  obtain ⟨u, hu, rfl⟩ := step_event h
  rw [State.advance_pc] at hne ⊢
  cases hu with
  | reset hr => exact .inl ⟨hr, s.resetBlock_pc⟩
  | illegal | raise | resume | hold => exact absurd rfl hne
  | complete hr hs hd _ he =>
    refine .inr ⟨State.performsUop_iff.mpr ⟨hr, hs⟩, ?_⟩
    obtain hpc | hw := exec_pc he
    · exact absurd hpc hne
    · rw [hd]
      generalize u.pc = p at hw ⊢
      cases hw with
      | pcInc => exact .inl ⟨rfl, rfl⟩
      | pcAddOffset => exact .inr (.inl ⟨rfl, rfl⟩)
      | sendPc => exact .inr (.inr (.inl ⟨rfl, rfl⟩))
      | lsuToPc hl => exact .inr (.inr (.inr (.inl ⟨rfl, hl⟩)))
      | irToPc hi => exact .inr (.inr (.inr (.inr ⟨rfl, hi⟩)))

/-- Settles O24: 4 divides 2^32, so the wrap keeps the pc modulo 4. -/
theorem pcIncAddsFour : Obligations.PcIncAddsFour := by
  refine ⟨decodeOfEncode .pcInc rfl, fun s => ⟨s.pc + 4, exec_pcInc s, ?_⟩⟩
  have hsum : (s.pc + 4).toNat = (s.pc.toNat + 4) % 2 ^ 32 := BitVec.toNat_add s.pc 4
  exact ⟨hsum, by omega⟩

/-- Settles O25. -/
theorem pcAddOffsetAddsTheBus : Obligations.PcAddOffsetAddsTheBus := by
  refine ⟨decodeOfEncode .pcAddOffset rfl, fun s => ⟨_, exec_pcAddOffset s, ?_⟩⟩
  rw [BitVec.toNat_add, BitVec.toNat_add, Nat.mod_add_mod, State.offsetStep_toNat]

/-- Settles O26. -/
theorem pcLinkSendsGoThroughTheBus : Obligations.PcLinkSendsGoThroughTheBus :=
  ⟨⟨decodeOfEncode .pcToLsu rfl, decodeOfEncode .pcToIr rfl⟩, fun s => ⟨exec_pcToLsu s, exec_pcToIr s⟩⟩

/-- Settles O27. -/
theorem pcLinkRetrievesGoThroughTheBus : Obligations.PcLinkRetrievesGoThroughTheBus :=
  ⟨⟨decodeOfEncode .lsuToPc rfl, decodeOfEncode .irToPc rfl⟩, fun _ _ =>
    ⟨exec_lsuToPc_of_word, exec_of_cell_unwritten rfl rfl, exec_irToPc_of_word, exec_of_cell_unwritten rfl rfl⟩⟩

end Sys2Proof.Machine

/-! PROOFS of the family 42_bus_and_registers.md: the sends and receives of the slots (O11, O12, O13), the register
micro-operations with their checks (O14, O15) and the bus constants (O17, O18). -/

namespace Sys2Proof

/-! ### the uop of a micro-operation, by its row and its operands -/

/-- Uops are joined field by field (R42). -/
theorem packFields_or (o p : BitVec 6) (z y : BitVec 2) (r q : BitVec 8) (m n : BitVec 16) :
    packFields o z r m ||| packFields p y q n = packFields (o ||| p) (z ||| y) (r ||| q) (m ||| n) := by
  have h : (o ++ z ++ r ++ m) ||| (p ++ y ++ q ++ n) = (o ||| p) ++ (z ||| y) ++ (r ||| q) ++ (m ||| n) := by
    simp only [BitVec.or_append]
  exact h

/-- The index field alone (R42). -/
theorem packFields_index (r : BitVec 8) : packFields 0 0 r 0 = r.setWidth 32 <<< 16 := by
  apply BitVec.eq_of_toNat_eq
  rw [packFields_toNat, BitVec.toNat_shiftLeft, BitVec.toNat_setWidth, Nat.shiftLeft_eq]
  simp only [BitVec.ofNat_eq_ofNat, BitVec.toNat_ofNat]
  omega

/-- The immediate field alone (R42). -/
theorem packFields_immediate (imm : BitVec 16) : packFields 0 0 0 imm = imm.setWidth 32 := by
  apply BitVec.eq_of_toNat_eq
  rw [packFields_toNat, BitVec.toNat_setWidth]
  simp only [BitVec.ofNat_eq_ofNat, BitVec.toNat_ofNat]
  omega

/-- The uop is the match value of its row with the two operands in their places (R43). -/
theorem encode_eq_or (i : Instr) :
    encode i = i.pattern ||| (i.rOperand.setWidth 32 <<< 16) ||| i.immOperand.setWidth 32 := by
  rw [i.pattern_eq, ← packFields_index, ← packFields_immediate, packFields_or, packFields_or]
  simp [encode]

/-- Format R: a row's match value with any index decodes to that row's micro-operation (R43, R44). -/
theorem decode_formatR {i : Instr} {op : BitVec 6} {m : Word} {r : BitVec 8} (hi : i.wellFormed = true)
    (hop : i.opcode = op) (hm : op.setWidth 32 <<< 26 = m) (hr : i.rOperand = r) (himm : i.immOperand = 0) :
    decode (m ||| (r.setWidth 32 <<< 16)) = .ok i := by
  have h : encode i = m ||| (r.setWidth 32 <<< 16) := by simp [encode_eq_or, Instr.pattern, hop, hm, hr, himm]
  rw [← h, decodeOfEncode i hi]

/-- Format I: a row's match value with any immediate decodes to that row's micro-operation (R43, R45). -/
theorem decode_formatI {i : Instr} {op : BitVec 6} {m : Word} {imm : BitVec 16} (hi : i.wellFormed = true)
    (hop : i.opcode = op) (hm : op.setWidth 32 <<< 26 = m) (hr : i.rOperand = 0) (himm : i.immOperand = imm) :
    decode (m ||| imm.setWidth 32) = .ok i := by
  have h : encode i = m ||| imm.setWidth 32 := by simp [encode_eq_or, Instr.pattern, hop, hm, hr, himm]
  rw [← h, decodeOfEncode i hi]

theorem decode_regRead (r : BitVec 8) :
    decode (0x28000000#32 ||| (r.setWidth 32 <<< 16)) = .ok (.regRead r.toNat) :=
  decode_formatR (op := 0x0A#6) (decide_eq_true r.isLt) rfl rfl (by simp [Instr.rOperand]) rfl

theorem decode_regWrite (r : BitVec 8) :
    decode (0x2C000000#32 ||| (r.setWidth 32 <<< 16)) = .ok (.regWrite r.toNat) :=
  decode_formatR (op := 0x0B#6) (decide_eq_true r.isLt) rfl rfl (by simp [Instr.rOperand]) rfl

theorem decode_seti (imm : BitVec 16) : decode (0x30000000#32 ||| imm.setWidth 32) = .ok (.seti imm) :=
  decode_formatI (op := 0x0C#6) rfl rfl rfl rfl rfl

theorem decode_sethi (imm : BitVec 16) : decode (0x34000000#32 ||| imm.setWidth 32) = .ok (.sethi imm) :=
  decode_formatI (op := 0x0D#6) rfl rfl rfl rfl rfl

end Sys2Proof

namespace Sys2Proof.Machine

/-! ### sends and receives -/

theorem exec_sendAlu (s : State) : exec .sendAlu s = .next { s with alu := .word s.bus }.notify := rfl

theorem exec_sendLsu (s : State) : exec .sendLsu s = .next { s with lsuData := .word s.bus }.notify := rfl

theorem exec_sendLsuAddr (s : State) : exec .sendLsuAddr s = .next { s with lsuAddr := .word s.bus }.notify := rfl

theorem exec_sendPc (s : State) : exec .sendPc s = .next { s with pc := s.bus }.notify := rfl

theorem exec_sendIr (s : State) : exec .sendIr s = .next { s with ir := .word s.bus }.notify := rfl

theorem exec_recvPc (s : State) : exec .recvPc s = .next { s with bus := s.pc }.notify := rfl

/-- The rule that RECV_ALU, RECV_LSU and RECV_IR share: a written cell goes to the bus (R75, R78, R82). -/
theorem perform_receive_word (s : State) {c : Cell} (n : Word) {v : Word} (h : c = .word v) :
    perform s (val c n >>= fun w => pure { s with bus := w }.notify) = .next { s with bus := v }.notify := by
  rw [h, val_word, ok_bind, pure_eq_ok, perform_ok]

theorem exec_recvAlu_of_word {s : State} {v : Word} (h : s.alu = .word v) :
    exec .recvAlu s = .next { s with bus := v }.notify := perform_receive_word s aluCell h

theorem exec_recvLsu_of_word {s : State} {v : Word} (h : s.lsuData = .word v) :
    exec .recvLsu s = .next { s with bus := v }.notify := perform_receive_word s lsuDataCell h

theorem exec_recvIr_of_word {s : State} {v : Word} (h : s.ir = .word v) :
    exec .recvIr s = .next { s with bus := v }.notify := perform_receive_word s irCell h

/-- Settles O11. -/
theorem sendsWriteTheirSlot : Obligations.SendsWriteTheirSlot :=
  ⟨⟨decodeOfEncode .sendAlu rfl, decodeOfEncode .sendLsu rfl, decodeOfEncode .sendLsuAddr rfl,
    decodeOfEncode .sendPc rfl, decodeOfEncode .sendIr rfl⟩, fun s =>
    ⟨exec_sendAlu s, exec_sendLsu s, exec_sendLsuAddr s, exec_sendPc s, exec_sendIr s⟩⟩

/-- Settles O12. -/
theorem receivesWriteTheBus : Obligations.ReceivesWriteTheBus :=
  ⟨⟨decodeOfEncode .recvAlu rfl, decodeOfEncode .recvLsu rfl, decodeOfEncode .recvPc rfl, decodeOfEncode .recvIr rfl⟩,
    fun s _ =>
    ⟨exec_recvAlu_of_word, exec_recvLsu_of_word, exec_recvPc s, exec_recvIr_of_word,
      exec_of_cell_unwritten rfl rfl, exec_of_cell_unwritten rfl rfl, exec_of_cell_unwritten rfl rfl⟩⟩

/-- Settles O13: the send leaves its slot written with the bus, and that is what the receive reads. -/
theorem sendThenReceiveKeepsTheBus : Obligations.SendThenReceiveKeepsTheBus := fun s =>
  ⟨_, _, _, _,
    ⟨exec_sendAlu s, _, exec_recvAlu_of_word rfl, rfl, rfl⟩,
    ⟨exec_sendLsu s, _, exec_recvLsu_of_word rfl, rfl, rfl⟩,
    ⟨exec_sendPc s, _, exec_recvPc _, rfl, rfl⟩,
    ⟨exec_sendIr s, _, exec_recvIr_of_word rfl, rfl, rfl⟩⟩

/-! ### the register micro-operations -/

/-- The bounds check of the register micro-operations (R103). -/
theorem exec_of_index_outOfRange {s : State} {i : Instr} {n : Nat} (hi : indexNamed i = some n) (hn : s.k ≤ n) :
    exec i s = .next (s.faultEntry .indexOutOfRange (BitVec.ofNat 32 n)) := by
  rw [exec_of_expectedFault (expectedFault_outOfRange hi hn), word_natCast]

/-- REG_READ of a register that shows the unwritten mark (R14, R104). -/
theorem exec_regRead_of_unwritten {s : State} {i : Nat} (hi : i < s.k) (hc : s.regCell i = .unwritten) :
    exec (.regRead i) s = .next (s.faultEntry .unwrittenRead (BitVec.ofNat 32 i)) := by
  have hcell : firstUnwritten s (.regRead i) = some (word i) := by simp [firstUnwritten, cellsRead, hc]
  have hfault : expectedFault s (.regRead i) = some ⟨.unwrittenRead, word i⟩ := by
    rw [expectedFault_inRange rfl hi, hcell, Option.map_some]
  rw [exec_of_expectedFault hfault, word_natCast]

/-- Writing what a register shows changes no register: a hard-wired register 0 takes no write, and the others hold
what they show (R15). -/
theorem exec_regWrite_of_shown {s : State} {i : Nat} (hi : i < s.k) (hc : s.regCell i = .word s.bus) :
    exec (.regWrite i) s = .next s.notify := by
  by_cases hz : s.params.r0Hardwired = true ∧ i = 0
  · obtain ⟨hw, rfl⟩ := hz
    exact exec_regWrite_hardwired hi hw
  · have hx : s.x[i] = .word s.bus := by
      rw [← hc, State.regCell_of_storage hz (List.getElem?_eq_getElem hi)]
    rw [exec_regWrite_of_storage hi hz, ← hx, List.set_getElem_self hi]

/-- Settles O14: the cases are the checks of R14 in their order. -/
theorem regReadPutsRegisterOnBus : Obligations.RegReadPutsRegisterOnBus := by
  refine ⟨decode_regRead, fun s i => ?_⟩
  split_ifs with hk hz
  · exact exec_of_index_outOfRange rfl hk
  · obtain ⟨hw, rfl⟩ := hz
    exact exec_regRead_of_word (Nat.lt_of_not_le hk) (State.regCell_hardwired hw)
  · have hi : i < s.k := Nat.lt_of_not_le hk
    exact ⟨fun hx => exec_regRead_of_unwritten hi (State.regCell_of_storage hz hx),
      fun v hx => exec_regRead_of_word hi (State.regCell_of_storage hz hx)⟩

/-- Settles O15: a read leaves the registers and puts on the bus what the register shows, so the write after it
changes none. -/
theorem regWriteStoresTheBus : Obligations.RegWriteStoresTheBus := by
  refine ⟨decode_regWrite, fun s i v hi hv => ?_, fun s i => ?_⟩
  · exact ⟨_, _, exec_regRead_of_word hi hv, exec_regWrite_of_shown hi hv, rfl⟩
  · split_ifs with hk hz
    · exact exec_of_index_outOfRange rfl hk
    · obtain ⟨hw, rfl⟩ := hz
      exact exec_regWrite_hardwired (Nat.lt_of_not_le hk) hw
    · obtain ⟨x, hexec, hx⟩ := exec_regWrite_inRange (Nat.lt_of_not_le hk)
      rw [if_neg hz] at hx
      exact ⟨x, hexec, hx⟩

/-! ### the bus constants -/

theorem exec_seti (imm : BitVec 16) (s : State) :
    exec (.seti imm) s = .next { s with bus := sext32 imm }.notify := rfl

theorem exec_sethi (imm : BitVec 16) (s : State) :
    exec (.sethi imm) s = .next { s with bus := setUpperHalf imm s.bus }.notify := rfl

/-- Sign extension keeps the signed value (R5). -/
theorem sext32_toInt (imm : BitVec 16) : (sext32 imm).toInt = imm.toInt :=
  BitVec.toInt_signExtend_of_le (by decide)

theorem setUpperHalf_toNat (imm : BitVec 16) (w : Word) :
    (setUpperHalf imm w).toNat = imm.toNat * 2 ^ 16 + w.toNat % 2 ^ 16 := by
  rw [setUpperHalf, BitVec.toNat_append, ← Nat.shiftLeft_add_eq_or_of_lt (BitVec.isLt _), Nat.shiftLeft_eq,
    BitVec.extractLsb'_toNat, Nat.shiftRight_zero]

/-- Sign extension keeps the sixteen bits it starts from (R5). -/
theorem lowerHalf_sext32 (imm : BitVec 16) : (sext32 imm).extractLsb' 0 16 = imm := by
  ext k hk
  rw [sext32, BitVec.getElem_extractLsb', BitVec.getLsbD_signExtend]
  simp [hk, Nat.lt_trans hk]

/-- The upper half above the sign-extended lower half is the whole constant (R86). -/
theorem setUpperHalf_sext32 (c : Word) :
    setUpperHalf (c.extractLsb' 16 16) (sext32 (c.extractLsb' 0 16)) = c := by
  rw [setUpperHalf, lowerHalf_sext32]
  exact (BitVec.extractLsb'_append_extractLsb'_eq_extractLsb' rfl).trans BitVec.extractLsb'_eq_self

/-- Settles O17. -/
theorem setiPutsSignExtendedConstant : Obligations.SetiPutsSignExtendedConstant := fun s imm =>
  ⟨decode_seti imm, sext32 imm, sext32_toInt imm, exec_seti imm s⟩

/-- Settles O18. -/
theorem sethiReplacesUpperHalf : Obligations.SethiReplacesUpperHalf := by
  refine fun s imm => ⟨decode_sethi imm,
    ⟨setUpperHalf imm s.bus, setUpperHalf_toNat imm s.bus, exec_sethi imm s⟩, fun c => ⟨_, exec_seti _ s, ?_⟩⟩
  rw [exec_sethi, State.notify_bus, setUpperHalf_sext32]
  rfl

end Sys2Proof.Machine

/-! PROOFS of the family 43_load_store.md: the load and the store with their checks in order (O30, O31), and the fetch
sequence (O35). -/

namespace Sys2Proof.Machine

/-! ### the checks of an access -/

theorem aligned_eq_false_iff_mod (a : Word) : aligned a = false ↔ a.toNat % 4 ≠ 0 := by
  rw [← Bool.not_eq_true, aligned_iff_mod]

section
variable {s : State} {a v : Word}

/-- The checks of R87 behind a written address latch, in their order. -/
theorem expectedFault_lsuLoad (hl : s.lsuAddr = .word a) :
    expectedFault s .lsuLoad =
      if a.toNat % 4 ≠ 0 then some ⟨.misaligned, a⟩
      else if memOk s.params a .read = false then some ⟨.memAccess, a⟩ else none := by
  have hcells : firstUnwritten s .lsuLoad = none := by simp [firstUnwritten, cellsRead, hl]
  simp only [expectedFault_access rfl hcells rfl hl, aligned_eq_false_iff_mod]

/-- The checks of R88 behind two written latches, in their order. -/
theorem expectedFault_lsuStore (hl : s.lsuAddr = .word a) (hd : s.lsuData = .word v) :
    expectedFault s .lsuStore =
      if a.toNat % 4 ≠ 0 then some ⟨.misaligned, a⟩
      else if memOk s.params a .write = false then some ⟨.memAccess, a⟩ else none := by
  have hcells : firstUnwritten s .lsuStore = none := by simp [firstUnwritten, cellsRead, hl, hd]
  simp only [expectedFault_access rfl hcells rfl hl, aligned_eq_false_iff_mod]

/-- LSU_STORE reads the address latch before the data latch (R88, R104). -/
theorem exec_lsuStore_of_addr_unwritten (hl : s.lsuAddr = .unwritten) :
    exec .lsuStore s = .next (s.faultEntry .unwrittenRead lsuAddrCell) := by
  have hcell : firstUnwritten s .lsuStore = some lsuAddrCell := by simp [firstUnwritten, cellsRead, hl]
  exact exec_of_expectedFault (expectedFault_unwritten rfl hcell)

theorem exec_lsuStore_of_data_unwritten (hl : s.lsuAddr = .word a) (hd : s.lsuData = .unwritten) :
    exec .lsuStore s = .next (s.faultEntry .unwrittenRead lsuDataCell) := by
  have hcell : firstUnwritten s .lsuStore = some lsuDataCell := by simp [firstUnwritten, cellsRead, hl, hd]
  exact exec_of_expectedFault (expectedFault_unwritten rfl hcell)

/-- A store of a written data latch to an aligned address that the memory accepts (R88). -/
theorem exec_lsuStore_of_accepted (hl : s.lsuAddr = .word a) (hd : s.lsuData = .word v) (ha : aligned a = true)
    (hm : memOk s.params a .write = true) :
    exec .lsuStore s = .next { s with mem := Memory.writeWord s.params.endian s.mem a.toNat v }.notify := by
  change execLsuStore s = _
  simp [execLsuStore, hl, hd, memWrite, ha, hm]

end

/-- Byte `j` of a Word that was written, counted from its address (R28, R31). -/
theorem Memory.readByte_writeWord_offset {e : Endian} {m : Memory} {a j : Nat} {w : Word} (ha : a + 3 < 2 ^ 32)
    (hw : Memory.wf m = true) (hj : j < 4) :
    Memory.readByte (Memory.writeWord e m a w) (a + j) = byteAt e w j := by
  rw [Memory.readByte_writeWord ha hw]
  obtain rfl | rfl | rfl | rfl : j = 0 ∨ j = 1 ∨ j = 2 ∨ j = 3 := by omega
  all_goals simp

/-- Settles O30. -/
theorem lsuLoadReadsOneWord : Obligations.LsuLoadReadsOneWord := by
  refine ⟨decodeOfEncode .lsuLoad rfl, fun s a => ⟨exec_of_cell_unwritten rfl rfl, fun hl => ?_⟩⟩
  have hfault := expectedFault_lsuLoad hl
  split_ifs at hfault ⊢ with ha hm
  · exact exec_of_expectedFault hfault
  · exact exec_of_expectedFault hfault
  · exact exec_lsuLoad_of_accepted hl ((aligned_iff_mod a).mpr (not_not.mp ha)) (eq_true_of_ne_false hm)

/-- Settles O31: an aligned Word ends inside the space, so its four bytes are the ones written, and only they. -/
theorem lsuStoreWritesOneWord : Obligations.LsuStoreWritesOneWord := by
  refine ⟨decodeOfEncode .lsuStore rfl, fun s a v hwf =>
    ⟨exec_lsuStore_of_addr_unwritten, exec_lsuStore_of_data_unwritten, fun hl hd => ?_⟩⟩
  have hfault := expectedFault_lsuStore hl hd
  split_ifs at hfault ⊢ with ha hm
  · exact exec_of_expectedFault hfault
  · exact exec_of_expectedFault hfault
  · have haligned : aligned a = true := (aligned_iff_mod a).mpr (not_not.mp ha)
    have hlast := aligned_last_byte haligned
    exact ⟨_, exec_lsuStore_of_accepted hl hd haligned (eq_true_of_ne_false hm),
      Memory.readWord_writeWord_self hlast hwf, fun j hj => Memory.readByte_writeWord_offset hlast hwf hj,
      fun c hc => Memory.readByte_writeWord_frame hc⟩

/-! ### the fetch sequence -/

section
variable {s : State}

theorem performAll_pcToLsu (is : List Instr) (hs : s.runState = .running) :
    performAll (.pcToLsu :: is) s =
      performAll is { s with bus := s.pc, lsuAddr := .word s.pc, notifyCount := s.notifyCount + 2 } :=
  performAll_cons hs rfl (exec_pcToLsu _)

theorem performAll_lsuLoad {a : Word} (is : List Instr) (hs : s.runState = .running) (hl : s.lsuAddr = .word a)
    (ha : aligned a = true) (hm : memOk s.params a .read = true) :
    performAll (.lsuLoad :: is) s =
      performAll is { s with
        lsuData := .word (Memory.readWord s.params.endian s.mem a.toNat), notifyCount := s.notifyCount + 1 } :=
  performAll_cons hs rfl (exec_lsuLoad_of_accepted hl ha hm)

theorem performAll_recvLsu {v : Word} (is : List Instr) (hs : s.runState = .running) (hd : s.lsuData = .word v) :
    performAll (.recvLsu :: is) s = performAll is { s with bus := v, notifyCount := s.notifyCount + 1 } :=
  performAll_cons hs rfl (exec_recvLsu_of_word hd)

theorem performAll_sendIr (is : List Instr) (hs : s.runState = .running) :
    performAll (.sendIr :: is) s =
      performAll is { s with ir := .word s.bus, notifyCount := s.notifyCount + 1 } :=
  performAll_cons hs rfl (exec_sendIr _)

/-- A FAULTED block lets the sequencer present the rest and performs none of it (R91, R111). -/
theorem performAll_of_faulted (is : List Instr) (hs : s.runState = .faulted) :
    performAll is s = .next { s with inputs := .idle, later := [] } := by
  induction is with
  | nil => exact performAll_nil s
  | cons i is ih =>
    have hblock : blockStep (s.feed (encode i :: is.map encode)) = .next (s.feed (encode i :: is.map encode)) :=
      blockStep_final rfl (.inr (.inr hs))
    exact (runSteps_succ is.length (step_of_blockStep hblock)).trans ih

/-- A sequence stops at a micro-operation that raises a fault, with that uop on record (R92, R110). -/
theorem performAll_of_fault {i : Instr} {f : Raised} (is : List Instr) (hs : s.runState = .running)
    (hi : i.wellFormed = true) (hf : expectedFault s i = some f) :
    performAll (i :: is) s = .next { s with
      faultCode := f.code, faultUop := encode i, faultInfo := f.info, runState := .faulted
      inputs := .idle, later := [] } := by
  calc performAll (i :: is) s
    _ = performAll is { s with
          faultCode := f.code, faultUop := encode i, faultInfo := f.info, runState := .faulted } :=
        performAll_cons hs hi (exec_of_expectedFault (s := s.feed (encode i :: is.map encode)) hf)
    _ = _ := performAll_of_faulted is rfl

/-- FETCH from a pc that the memory accepts: the Word goes through the data latch and the bus to the ir (R90). -/
theorem performAll_fetch {w : Word} (hs : s.runState = .running) (ha : aligned s.pc = true)
    (hm : memOk s.params s.pc .read = true) (hw : w = Memory.readWord s.params.endian s.mem s.pc.toNat) :
    performAll (Pseudo.expand .fetch) s = .next { s with
      lsuAddr := .word s.pc, lsuData := .word w, bus := w, ir := .word w, notifyCount := s.notifyCount + 5
      inputs := .idle, later := [] } := by
  calc performAll [.pcToLsu, .lsuLoad, .recvLsu, .sendIr] s
    _ = performAll [.lsuLoad, .recvLsu, .sendIr] { s with
          lsuAddr := .word s.pc, bus := s.pc, notifyCount := s.notifyCount + 2 } := performAll_pcToLsu _ hs
    _ = performAll [.recvLsu, .sendIr] { s with
          lsuAddr := .word s.pc, lsuData := .word w, bus := s.pc, notifyCount := s.notifyCount + 3 } :=
        hw ▸ performAll_lsuLoad _ hs rfl ha hm
    _ = performAll [.sendIr] { s with
          lsuAddr := .word s.pc, lsuData := .word w, bus := w, notifyCount := s.notifyCount + 4 } :=
        performAll_recvLsu _ hs rfl
    _ = performAll [] { s with
          lsuAddr := .word s.pc, lsuData := .word w, bus := w, ir := .word w, notifyCount := s.notifyCount + 5 } :=
        performAll_sendIr _ hs
    _ = _ := performAll_nil _

/-- FETCH from a misaligned pc: PC_TO_LSU does not check it and completes, LSU_LOAD raises (R90). -/
theorem performAll_fetch_of_misaligned (hs : s.runState = .running) (ha : s.pc.toNat % 4 ≠ 0) :
    performAll (Pseudo.expand .fetch) s = .next { s with
      lsuAddr := .word s.pc, bus := s.pc, notifyCount := s.notifyCount + 2
      faultCode := .misaligned, faultUop := encode .lsuLoad, faultInfo := s.pc, runState := .faulted
      inputs := .idle, later := [] } := by
  calc performAll [.pcToLsu, .lsuLoad, .recvLsu, .sendIr] s
    _ = performAll [.lsuLoad, .recvLsu, .sendIr]
          { s with bus := s.pc, lsuAddr := .word s.pc, notifyCount := s.notifyCount + 2 } :=
        performAll_pcToLsu _ hs
    _ = _ := performAll_of_fault _ hs rfl ((expectedFault_lsuLoad rfl).trans (if_pos ha))

end

/-- Settles O35. -/
theorem fetchSequenceLoadsTheIr : Obligations.FetchSequenceLoadsTheIr := fun s hs =>
  ⟨fun ha hm => ⟨_, rfl, performAll_fetch hs ((aligned_iff_mod s.pc).mpr ha) hm rfl⟩,
    performAll_fetch_of_misaligned hs⟩

end Sys2Proof.Machine

/-! PROOFS of the family 44_sequencing.md: what one step does in each run state (O7, O8, O10), BOUNDARY and HALT (O37,
O38), requests without a BOUNDARY (O40), the notifications of R98 (O41) and the end of a run (O44). -/

namespace Sys2Proof.Machine

/-! ### the step in each run state -/

/-- Settles O10: every event of R91 leaves a state. -/
theorem everyStepAnswers : Obligations.EveryStepAnswers := by
  intro s
  obtain ⟨u, hb, -⟩ := blockStep_event s
  exact ⟨u.advance, step_of_blockStep hb⟩

/-- Settles O7. -/
theorem stepPerformsDecodedUop : Obligations.StepPerformsDecodedUop := by
  intro s t i hr hs hd he
  have hb : blockStep s = .next t := by rw [blockStep_running hr hs, runningStep_exec hd, he]
  exact step_of_blockStep hb

/-- Settles O8. -/
theorem stepOutsideRunning : Obligations.StepOutsideRunning := by
  intro s hr
  refine ⟨fun hs hp => ?_, fun hs hp => ?_, fun hs => ?_⟩
  · have hb := blockStep_paused hr hs
    rw [State.pausedStep_resumed s hp] at hb
    exact step_of_blockStep hb
  · have hb := blockStep_paused hr hs
    rw [State.pausedStep_held s hp] at hb
    exact step_of_blockStep hb
  · exact step_of_blockStep (blockStep_final hr hs)

/-! ### BOUNDARY and HALT -/

theorem exec_boundary_of_stop {s : State} (hstop : s.inputs.stopReq = true) :
    exec .boundary s = .next { s with runState := .stopped } := by
  simp [exec_boundary, State.boundaryRunState, hstop]

theorem exec_boundary_of_pause {s : State} (hstop : s.inputs.stopReq = false) (hpause : s.inputs.pauseReq = true) :
    exec .boundary s = .next { s with runState := .paused } := by
  simp [exec_boundary, State.boundaryRunState, hstop, hpause]

/-- Settles O37. -/
theorem boundaryTakesRequests : Obligations.BoundaryTakesRequests :=
  ⟨decodeOfEncode .boundary rfl, fun _ =>
    ⟨exec_boundary_of_stop, exec_boundary_of_pause, exec_boundary_of_noRequest⟩⟩

/-- Settles O38. -/
theorem haltEndsTheProgram : Obligations.HaltEndsTheProgram := by
  refine ⟨decodeOfEncode .halt rfl, exec_halt, fun s t hs hr h => ?_⟩
  rw [step_of_blockStep (blockStep_final hr (.inr (.inl hs)))] at h
  cases h
  exact hs

/-! ### the end of a run -/

theorem State.ended_iff {s : State} :
    s.ended = true ↔ s.runState = .stopped ∨ s.runState = .halted ∨ s.runState = .faulted := by
  cases h : s.runState <;> simp [State.ended, h]

/-- A step without reset from an ended state only uses up its inputs (R91, R100). -/
theorem step_of_ended {s : State} (hs : s.ended = true) (hr : s.inputs.reset = false) : step s = .next s.advance :=
  step_of_blockStep (blockStep_final hr (State.ended_iff.mp hs))

/-- When the schedule runs out, undriven inputs assert no reset either (log 2). -/
theorem State.noResetFor.advance {s : State} {n : Nat} (h : s.noResetFor (n + 1)) : s.advance.noResetFor n := by
  obtain ⟨-, hl⟩ := h
  unfold State.noResetFor
  rw [State.advance_inputs, State.advance_later]
  cases hs : s.later with
  | nil => simp [Inputs.idle]
  | cons j js => simpa [hs] using hl

/-- Settles O44, by induction on the number of steps: the first one leaves an ended state under the rest of the
schedule. -/
theorem endedBlockStaysUntilReset : Obligations.EndedBlockStaysUntilReset := by
  intro n
  induction n with
  | zero =>
    intro s t hs hn h
    rw [runSteps_succ 0 (step_of_ended hs hn.1)] at h
    cases h
    rfl
  | succ n ih =>
    intro s t hs hn h
    rw [runSteps_succ (n + 1) (step_of_ended hs hn.1)] at h
    exact ih s.advance t hs hn.advance h

/-! ### rules that read neither the inputs nor the run state -/

/-- The same datapath, fault record, memory and parameters, under other inputs and in another run state. -/
def State.redriven (s : State) (f : Inputs → Inputs) (g : RunState → RunState) : State :=
  { s with inputs := f s.inputs, runState := g s.runState }

/-- The rule `r` reads neither the inputs nor the run state, and where it completes it leaves them alone. -/
def IgnoresControl (r : State → RuleResult) : Prop :=
  ∀ s f g, r (s.redriven f g) = (r s).map (State.redriven · f g)

namespace IgnoresControl

theorem ok {w : State → State} (hw : ∀ s f g, w (s.redriven f g) = (w s).redriven f g) :
    IgnoresControl fun s => .ok (w s) :=
  fun s f g => congrArg Except.ok (hw s f g)

/-- A rule goes on from what it read or checked, which is no input and no run state. -/
theorem bind {α : Type} {x : State → Except Raised α} {r : State → α → RuleResult}
    (hx : ∀ s f g, x (s.redriven f g) = x s) (hr : ∀ a, IgnoresControl fun s => r s a) :
    IgnoresControl fun s => x s >>= r s := by
  intro s f g
  simp only [hx s f g]
  cases x s with
  | error e => rfl
  | ok a => exact hr a s f g

theorem notify {r : State → RuleResult} (hr : IgnoresControl r) :
    IgnoresControl fun s => r s >>= fun t => pure t.notify := by
  intro s f g
  simp only [hr s f g]
  cases r s <;> rfl

theorem writeReg (i : Nat) : IgnoresControl fun s => Machine.writeReg s i s.bus := by
  intro s f g
  simp only [Machine.writeReg, apply_ite (Except.map _)]
  rfl

theorem memWrite (a v : Word) : IgnoresControl fun s => Machine.memWrite s a v := by
  intro s f g
  simp only [Machine.memWrite, apply_ite (Except.map _)]
  rfl

end IgnoresControl

/-- Every micro-operation but BOUNDARY and HALT is a rule of the datapath (R18, R125). -/
theorem exec_ignoresControl (i : Instr) (hb : i ≠ .boundary) (hh : i ≠ .halt) :
    ∃ r, (∀ s, exec i s = perform s (r s)) ∧ IgnoresControl r := by
  cases i with
  | sendAlu | sendLsu | sendLsuAddr | sendPc | recvPc | sendIr | seti _ | sethi _ | pcInc | pcAddOffset | pcToLsu
  | pcToIr =>
    refine ⟨fun _ => .ok _, fun _ => rfl, ?_⟩
    exact .ok fun _ _ _ => rfl
  | recvAlu | recvLsu | recvIr | aluXor | aluOr | aluAnd | aluNot | aluShift | aluAdd | lsuToPc | irToPc | regRead _ =>
    exact ⟨_, fun _ => rfl, .bind (fun _ _ _ => rfl) fun _ => .ok fun _ _ _ => rfl⟩
  | regWrite n => exact ⟨_, fun _ => rfl, (IgnoresControl.writeReg n).notify⟩
  | lsuLoad =>
    exact ⟨_, fun _ => rfl, .bind (fun _ _ _ => rfl) fun _ => .bind (fun _ _ _ => rfl) fun _ => .ok fun _ _ _ => rfl⟩
  | lsuStore =>
    exact ⟨_, fun _ => rfl, .bind (fun _ _ _ => rfl) fun a => .bind (fun _ _ _ => rfl) fun v =>
      (IgnoresControl.memWrite a v).notify⟩
  | boundary => exact absurd rfl hb
  | halt => exact absurd rfl hh

/-! ### requests without a BOUNDARY -/

def Inputs.withRequests (stop pause : Bool) (j : Inputs) : Inputs := { j with stopReq := stop, pauseReq := pause }

/-- The same block under other stop and pause requests. -/
def State.requested (s : State) (stop pause : Bool) : State := s.redriven (Inputs.withRequests stop pause) id

section
variable {s : State} (stop pause : Bool)

/-- Only a BOUNDARY is performed differently under other requests: HALT reads none (R94), the rest are rules of the
datapath, and fault entry reads the uop alone (R110). -/
theorem advanceOutcome_exec_requested {i : Instr} (hi : i ≠ .boundary) :
    advanceOutcome (exec i (s.requested stop pause)) = advanceOutcome (exec i s) := by
  by_cases hh : i = .halt
  · subst hh
    rfl
  obtain ⟨r, hexec, hr⟩ := exec_ignoresControl i hi hh
  rw [hexec, hexec, State.requested, hr]
  cases r s <;> rfl

theorem step_requested_of_reset (hr : s.inputs.reset = true) : step (s.requested stop pause) = step s := by
  rw [step_of_blockStep (blockStep_reset hr), step_of_blockStep (blockStep_reset (s := s.requested stop pause) hr)]
  rfl

theorem step_requested_of_running (hr : s.inputs.reset = false) (hs : s.runState = .running)
    (hd : decode s.inputs.uop ≠ .ok .boundary) : step (s.requested stop pause) = step s := by
  unfold step
  rw [blockStep_running hr hs, blockStep_running (s := s.requested stop pause) hr hs]
  cases h : decode s.inputs.uop with
  | error e =>
    rw [runningStep_illegal h, runningStep_illegal (s := s.requested stop pause) h]
    rfl
  | ok i =>
    rw [runningStep_exec h, runningStep_exec (s := s.requested stop pause) h]
    exact advanceOutcome_exec_requested stop pause fun hi => hd (hi ▸ h)

/-- What a step does outside RUNNING depends on `resume` alone of the inputs (R91). -/
theorem step_requested_of_notRunning (hr : s.inputs.reset = false) (hs : s.runState ≠ .running) :
    step (s.requested stop pause) = step s := by
  obtain ⟨hresume, hhold, hfinal⟩ := stepOutsideRunning s hr
  obtain ⟨hresume', hhold', hfinal'⟩ := stepOutsideRunning (s.requested stop pause) hr
  cases h : s.runState with
  | running => exact absurd h hs
  | paused =>
    cases hp : s.inputs.resume with
    | true => exact (hresume' h hp).trans (hresume h hp).symm
    | false => exact (hhold' h hp).trans (hhold h hp).symm
  | stopped => exact (hfinal' (.inl h)).trans (hfinal (.inl h)).symm
  | halted => exact (hfinal' (.inr (.inl h))).trans (hfinal (.inr (.inl h))).symm
  | faulted => exact (hfinal' (.inr (.inr h))).trans (hfinal (.inr (.inr h))).symm

end

/-- Settles O40. -/
theorem requestsActOnlyAtBoundary : Obligations.RequestsActOnlyAtBoundary := by
  intro s stop pause hn
  change step (s.requested stop pause) = step s
  cases hr : s.inputs.reset with
  | true => exact step_requested_of_reset stop pause hr
  | false =>
    by_cases hs : s.runState = .running
    · exact step_requested_of_running stop pause hr hs fun hd => hn ⟨State.performsUop_iff.mpr ⟨hr, hs⟩, hd⟩
    · exact step_requested_of_notRunning stop pause hr hs

/-! ### the notifications of a micro-operation -/

/-- The same block in RUNNING. -/
def State.inRunning (s : State) : State := s.redriven id fun _ => .running

@[simp] theorem State.inRunning_runState (s : State) : s.inRunning.runState = .running := rfl

section
variable {s t : State} {i : Instr}

/-- Where the tables give no fault, a rule of the datapath completes as it does in RUNNING: there fault entry would
show in the run state. -/
theorem exec_inRunning_of_noFault (hb : i ≠ .boundary) (hh : i ≠ .halt) (hf : expectedFault s i = none)
    (h : exec i s = .next t) : exec i s.inRunning = .next t.inRunning ∧ s.inRunning.Keeps t.inRunning := by
  obtain ⟨r, hexec, hr⟩ := exec_ignoresControl i hb hh
  obtain ⟨_, hf', -⟩ | ⟨-, u, hu, hk⟩ := exec_asTabled i s.inRunning
  · exact absurd (hf.symm.trans hf') (by simp)
  rw [hexec, State.inRunning, hr] at hu ⊢
  rw [hexec] at h
  cases hrs : r s with
  | ok v =>
    rw [hrs] at h hu
    cases h
    cases hu
    exact ⟨rfl, hk⟩
  | error e =>
    rw [hrs] at hu
    cases hu
    cases hk.runState rfl

/-- Where the tables give no fault, a micro-operation emits its notifications, in every run state (R98). -/
theorem exec_notifyCount_of_noFault (hf : expectedFault s i = none) (h : exec i s = .next t) :
    t.notifyCount = s.notifyCount + notifications i := by
  by_cases hb : i = .boundary
  · subst hb
    rw [exec_boundary] at h
    cases h
    rfl
  by_cases hh : i = .halt
  · subst hh
    cases h
    rfl
  obtain ⟨hrun, hk⟩ := exec_inRunning_of_noFault hb hh hf h
  have hcount := exec_notifyCount (by simp) hrun hk
  exact hcount

end

/-- Settles O41. -/
theorem notificationsAreAsTabled : Obligations.NotificationsAreAsTabled := by
  intro s i
  obtain ⟨f, hf, he⟩ | ⟨hf, t, he, -⟩ := exec_asTabled i s
  · exact ⟨_, he, by simp [hf]⟩
  · exact ⟨t, he, by rw [if_pos hf, exec_notifyCount_of_noFault hf he]⟩

end Sys2Proof.Machine

/-! PROOFS of the family 60_exceptions.md: a micro-operation raises exactly the fault that the fault tables give (O43). -/

namespace Sys2Proof.Machine

/-- Where the tables give no fault, a micro-operation completes and keeps all that no rule writes, the fault record
among it (R17, R92). -/
theorem exec_keeps_of_noFault {s : State} {i : Instr} (h : expectedFault s i = none) :
    ∃ t, exec i s = .next t ∧ s.Keeps t := by
  obtain ⟨f, hf, -⟩ | ⟨-, hk⟩ := exec_asTabled i s
  · simp [h] at hf
  · exact hk

/-- Settles O43: the outcome of `exec` in each of the two answers of the tables. -/
theorem execRaisesExactlyTheTabledFault : Obligations.ExecRaisesExactlyTheTabledFault := by
  intro s i
  cases hf : expectedFault s i with
  | some f => exact exec_of_expectedFault hf
  | none =>
    obtain ⟨t, he, hk⟩ := exec_keeps_of_noFault hf
    exact ⟨t, he, hk.faultCode, hk.faultUop, hk.faultInfo, hk.runState⟩

end Sys2Proof.Machine

/-! PROOFS of the family 70_reset_and_hazards.md: what a reset leaves of the block (O9), and that nothing else but the
micro-operations of R123 changes the bus (O29). -/

namespace Sys2Proof.Machine

/-! ### what a micro-operation leaves in the bus -/

/-- Outside the list of R123 no rule writes the bus. -/
theorem exec_ensuresBus {i : Instr} (hi : writesBus i = false) (s : State) :
    ∃ r, exec i s = perform s r ∧ EnsuresIfOk (fun t => t.bus = s.bus) r := by
  cases i with
  | recvAlu | recvLsu | recvPc | recvIr | regRead _ | seti _ | sethi _ | pcToLsu | lsuToPc | pcToIr | irToPc => cases hi
  | sendAlu | sendLsu | sendLsuAddr | sendPc | sendIr | pcInc | pcAddOffset | halt =>
    refine ⟨.ok _, rfl, ?_⟩
    exact .ok rfl
  | aluXor | aluOr | aluAnd | aluNot | aluShift | aluAdd => exact ⟨_, rfl, .bind fun _ _ => .ok rfl⟩
  | regWrite _ => exact ⟨_, rfl, .bind fun _ h => .ok (by rw [writeReg_frame h]; rfl)⟩
  | lsuLoad => exact ⟨_, rfl, .bind fun _ _ => .bind fun _ _ => .ok rfl⟩
  | lsuStore =>
    exact ⟨_, rfl, .bind fun _ _ => .bind fun _ _ => .bind fun _ h => .ok (by rw [memWrite_frame h]; rfl)⟩
  | boundary => exact ⟨.ok _, exec_boundary s, .ok rfl⟩

/-- Performed in `s`, fault entry included, a micro-operation outside the list of R123 keeps the bus (R110). -/
theorem exec_bus {s t : State} {i : Instr} (hi : writesBus i = false) (h : exec i s = .next t) : t.bus = s.bus := by
  obtain ⟨r, hexec, hr⟩ := exec_ensuresBus hi s
  obtain ht | ⟨_, _, rfl⟩ := hr.perform (hexec ▸ h)
  · exact ht
  · rfl

/-! ### the hard-wired register 0 -/

/-- The hard-wired register 0 reads zero, whatever its storage holds (R14). -/
theorem readReg_hardwired {s : State} (hw : s.params.r0Hardwired = true) (hk : 0 < s.k) :
    readReg s 0 = .ok 0x00000000#32 := by
  rw [readReg_inRange s 0 hk, State.regCell_hardwired hw, val_word]

/-! ### the obligations -/

/-- Settles O29: of the events of a step only a reset and the completion of a micro-operation write the bus. -/
theorem busChangesOnlyByItsMicroOperations : Obligations.BusChangesOnlyByItsMicroOperations := by
  intro s t h hne
  obtain ⟨u, hu, rfl⟩ := step_event h
  rw [State.advance_bus] at hne
  cases hu with
  | reset hr => exact .inl hr
  | illegal | raise | resume | hold => exact absurd rfl hne
  | @complete i _ hr hs hd _ he =>
    cases hw : writesBus i with
    | true => exact .inr ⟨State.performsUop_iff.mpr ⟨hr, hs⟩, i, hd, hw⟩
    | false => exact absurd (exec_bus hw he) hne

/-- Settles O9: the step is `resetBlock` with its inputs used up, and a count of 0 is above no other count. -/
theorem resetRestoresEveryElement : Obligations.ResetRestoresEveryElement := by
  intro s hr
  refine ⟨_, step_of_blockStep (blockStep_reset hr), rfl, fun hw hk => readReg_hardwired hw ?_, ?_⟩
  · rwa [State.advance_k, State.resetBlock_k]
  · simp [notifyStrobe]

end Sys2Proof.Machine
